-- ==== Sys2Proof/Word.lean ====
section
/-! DEFINITION. The word types of the CI-V frame codec block: bytes and nibbles (00_scope.md R6, R8). -/

namespace Sys2Proof

/-- Every frame byte, address, command, sub-command, payload and BCD byte is 8 bits (00_scope.md R6). -/
abbrev Byte := BitVec 8

/-- Half of a byte: one decimal digit of a BCD byte (00_scope.md R8, 41_bcd_codec.md R143). -/
abbrev Nibble := BitVec 4

/-- The preamble byte, sent twice at the start of every frame (00_scope.md R13, 30_encoding.md R70). -/
abbrev preambleByte : Byte := 0xFE

/-- The terminator byte that ends every frame (00_scope.md R13, 30_encoding.md R70). -/
abbrev terminatorByte : Byte := 0xFD

end Sys2Proof
end

