-- ==== Sys2Proof/Machine/Operands.lean ====
section
/-! DEFINITION. The operand forms of the block: nibbles, BCD bytes and the tail of a response (00_scope.md R8, R9, R11), and the two
digit readings that 43_field_codec.md R213 compares. -/

namespace Sys2Proof.Machine

/-- `hi(b) = b[7:4]` (00_scope.md R8). -/
def hi (b : Byte) : Nibble := b.extractLsb' 4 4

/-- `lo(b) = b[3:0]` (00_scope.md R8). -/
def lo (b : Byte) : Nibble := b.extractLsb' 0 4

/-- `isbcd(b)`: both nibbles are decimal digits (00_scope.md R11, 30_encoding.md R75). -/
def isBcd (b : Byte) : Bool := decide ((hi b).toNat ≤ 9) && decide ((lo b).toNat ≤ 9)

/-- `bcdv(b) = 10*hi(b) + lo(b)` (00_scope.md R11). -/
def bcdValue (b : Byte) : Nat := 10 * (hi b).toNat + (lo b).toNat

/-- `bcdb(v)`: the byte of tens nibble `v div 10` and units nibble `v mod 10`, for `v` up to 99 (00_scope.md R11, 30_encoding.md R74). -/
def bcdByte (v : Nat) : Byte := BitVec.ofNat 4 (v / 10) ++ BitVec.ofNat 4 (v % 10)

/-- `tail_k(s)`: the last `k` bytes, for `s` of at least `k` bytes (00_scope.md R9). -/
def tailBytes (k : Nat) (s : List Byte) : List Byte := s.drop (s.length - k)

/-- `Σ bcdv(F[i]) * 100^i`, index 0 least significant (30_encoding.md R76). -/
def freqValue : List Byte → Nat
  | [] => 0
  | b :: bs => bcdValue b + 100 * freqValue bs

/-- The frequency field: `F[i] = bcdb((HZ div 100^i) mod 100)` for `i` from 0 to 4 (43_field_codec.md R180). -/
def freqBytes (hz : Nat) : List Byte := (List.range 5).map fun i => bcdByte (hz / 100 ^ i % 100)

/-- The nibbles of a byte sequence read left to right, high nibble first (42_byte_swap.md R162). -/
def nibbles (bs : List Byte) : List Nat := bs.flatMap fun b => [(hi b).toNat, (lo b).toNat]

/-- The number that decimal digits spell, most significant first (43_field_codec.md R213). -/
def decimalNumber (digits : List Nat) : Nat := digits.foldl (fun acc d => 10 * acc + d) 0

end Sys2Proof.Machine
end

