-- ==== Sys2Proof/Config.lean ====
section
/-! DEFINITION. What one instance of the block fixes (00_scope.md R5), and the one free value. -/

namespace Sys2Proof

/-- The instance parameters of 00_scope.md R5. They are arguments of the block, not its registers (10_state.md R20): the model
carries them in `State.params`, and no step changes them (log 1). -/
structure Params where
  /-- `RADIO_ADDR`: frame offset 2. -/
  radioAddr : Byte
  /-- `CTRL_ADDR`: frame offset 3. -/
  ctrlAddr : Byte
  /-- `N_RX`: the depth of the receive buffer, at least 8. -/
  nRx : Nat
  /-- `P_MAX`: the longest payload FRAME_ENC accepts, at least 5. -/
  pMax : Nat
  /-- `TIME_PAD`: false keeps the source's single-digit time gap, true takes the fix. -/
  timePad : Bool
deriving DecidableEq, Repr

/-- The legal values of 00_scope.md R5: `N_RX` is at least 8 and `P_MAX` at least 5; every other parameter is free in its type. -/
abbrev Params.legal (p : Params) : Prop := 8 ≤ p.nRx ∧ 5 ≤ p.pMax

/-! The values that a particular block is built with are OPEN (00_scope.md R5): uninterpreted constants, log 1. -/

/-- `RADIO_ADDR` of the block, any 8-bit value. -/
opaque Config.radioAddr : Byte
/-- `CTRL_ADDR` of the block, any 8-bit value. -/
opaque Config.ctrlAddr : Byte
/-- How much deeper than the least legal depth the receive buffer is: `N_RX - 8`. -/
opaque Config.rxDepthAboveLeast : Nat
/-- How much longer than the least legal bound the payload bound is: `P_MAX - 5`. -/
opaque Config.payloadBoundAboveLeast : Nat
/-- `TIME_PAD` of the block. -/
opaque Config.timePad : Bool

/-- The parameters of the block that `State.reset` describes: uninterpreted, and legal whatever they are. -/
def Config.block : Params where
  radioAddr := Config.radioAddr
  ctrlAddr := Config.ctrlAddr
  nRx := Config.rxDepthAboveLeast + 8
  pMax := Config.payloadBoundAboveLeast + 5
  timePad := Config.timePad

/-- The free contents of `RX_BUF` after a reset action: the byte at an index after the reset action of a given number
(10_state.md R32 "its contents after reset are unspecified", 93_implementation_defined.md I21 "any value"; log 8). -/
opaque Config.rxBufAfterReset : Nat → Nat → Byte

end Sys2Proof
end

