-- ==== Sys2Proof/Syntax.lean ====
section
/-! DEFINITION. The 14 operations of the block, as the host or the transport presents them (30_encoding.md R80, R81). -/

namespace Sys2Proof

/-- The rows of 30_encoding.md R80, by mnemonic. -/
inductive Opcode where
  | frameEnc | rxStart | rxByte | rxTimeout | rxRead
  | bcdEnc | bcdDec
  | bswap
  | freqEnc | freqDec | timeEnc | timeDec | dateEnc | dateDec
deriving DecidableEq, Repr

/-- Who issues a step (30_encoding.md R80, 00_scope.md R14). -/
inductive Agent where
  | host
  | transport
deriving DecidableEq, Repr

/-- One step of the block with its operand ports (30_encoding.md R81). The length ports `PLEN`, `N` and `RLEN` are the lengths of
the byte sequences they count ("`PLEN = len(PAYLOAD)`", R100; "implied by the length of the brace list", R84): log 11. -/
inductive Instr where
  /-- FRAME_ENC: `CMD`, `HAS_SUB`, `SUB` (ignored when `HAS_SUB` is 0), `PAYLOAD`. -/
  | frameEnc (cmd : Byte) (hasSub : Bool) (sub : Byte) (payload : List Byte)
  /-- RX_START. -/
  | rxStart
  /-- RX_BYTE: `B`, the byte the transport delivers. -/
  | rxByte (b : Byte)
  /-- RX_TIMEOUT. -/
  | rxTimeout
  /-- RX_READ. -/
  | rxRead
  /-- BCD_ENC: `V`. -/
  | bcdEnc (v : BitVec 8)
  /-- BCD_DEC: `B`. -/
  | bcdDec (b : Byte)
  /-- BSWAP: `D`, with `N` its length. -/
  | bswap (d : List Byte)
  /-- FREQ_ENC: `HZ`, 34 bits. -/
  | freqEnc (hz : BitVec 34)
  /-- FREQ_DEC: `RESP`, any length. -/
  | freqDec (resp : List Byte)
  /-- TIME_ENC: `HOUR`, `MINUTE`. -/
  | timeEnc (hour minute : BitVec 8)
  /-- TIME_DEC: `RESP`, any length. -/
  | timeDec (resp : List Byte)
  /-- DATE_ENC: `YEAR` (14 bits), `MONTH`, `DAY`. -/
  | dateEnc (year : BitVec 14) (month day : BitVec 8)
  /-- DATE_DEC: `RESP`, any length. -/
  | dateDec (resp : List Byte)
deriving DecidableEq, Repr

/-- The row of 30_encoding.md R80 that an operation belongs to. -/
def Instr.opcode : Instr → Opcode
  | .frameEnc _ _ _ _ => .frameEnc
  | .rxStart => .rxStart
  | .rxByte _ => .rxByte
  | .rxTimeout => .rxTimeout
  | .rxRead => .rxRead
  | .bcdEnc _ => .bcdEnc
  | .bcdDec _ => .bcdDec
  | .bswap _ => .bswap
  | .freqEnc _ => .freqEnc
  | .freqDec _ => .freqDec
  | .timeEnc _ _ => .timeEnc
  | .timeDec _ => .timeDec
  | .dateEnc _ _ _ => .dateEnc
  | .dateDec _ => .dateDec

/-- The column "issued by" of 30_encoding.md R80. -/
def Opcode.issuedBy : Opcode → Agent
  | .rxByte => .transport
  | .rxTimeout => .transport
  | .frameEnc => .host
  | .rxStart => .host
  | .rxRead => .host
  | .bcdEnc => .host
  | .bcdDec => .host
  | .bswap => .host
  | .freqEnc => .host
  | .freqDec => .host
  | .timeEnc => .host
  | .timeDec => .host
  | .dateEnc => .host
  | .dateDec => .host

end Sys2Proof
end

