-- ==== Sys2Proof/WellFormed.lean ====
section
/-! DEFINITION. Which terms of `Instr` are operations the ports can carry (30_encoding.md R81). -/

namespace Sys2Proof

/-- An operation fits its ports. The types carry every width but two: `PLEN` (FRAME_ENC) and `N` (BSWAP) are 8-bit counts, so
those byte sequences have at most 255 bytes; `RLEN` is any natural number (30_encoding.md R81). -/
def Instr.wf : Instr → Bool
  | .frameEnc _ _ _ payload => decide (payload.length < 2 ^ 8)
  | .bswap d => decide (d.length < 2 ^ 8)
  | .rxStart => true
  | .rxByte _ => true
  | .rxTimeout => true
  | .rxRead => true
  | .bcdEnc _ => true
  | .bcdDec _ => true
  | .freqEnc _ => true
  | .freqDec _ => true
  | .timeEnc _ _ => true
  | .timeDec _ => true
  | .dateEnc _ _ _ => true
  | .dateDec _ => true

end Sys2Proof
end

