-- ==== Sys2Proof/Decode.lean ====
section
/-! DEFINITION. The operation encoding of 30_encoding.md R80 and R81: the decoder, total on any sequence of port values, and the
encoder after it.

A request is the selector `OP` followed by the values of the operand ports in the order of R81, one number a port and one number a
byte of a byte sequence, as the programs of 95_test_vectors.md Part 3 write it (`20 | N=05 D=00 07 01 14 00` is
`[0x20, 5, 0x00, 0x07, 0x01, 0x14, 0x00]`). The spec gives ports no byte order, so none is chosen: log 4. -/

namespace Sys2Proof

/-- The values on `OP` and the operand ports for one step, in the order of 30_encoding.md R81. -/
abbrev Request := List Nat

/-- The operand ports of 30_encoding.md R81, and `RLEN`, by name. -/
inductive Port where
  | cmd | hasSub | sub | plen | payload | b | v | n | d | hz | rlen | resp | hour | minute | year | month | day
deriving DecidableEq, Repr

/-- Why a sequence of port values is no operation of the table. -/
inductive DecodeError where
  /-- `OP` holds a value outside the table (30_encoding.md R83): the block returns ILLOP. -/
  | reservedOp (op : Nat)
  /-- There is no selector at all: no operation was presented (log 5). -/
  | noSelector
  /-- The selector does not fit the 8-bit `OP` (log 5). -/
  | selectorTooWide (op : Nat)
  /-- The operation has another number of port values (log 5). -/
  | wrongPorts (op : Opcode)
  /-- A value does not fit its port (log 5). -/
  | portTooWide (port : Port) (value : Nat)
deriving DecidableEq, Repr

/-- The value of `OP` for each row of 30_encoding.md R80. -/
def Opcode.code : Opcode → Nat
  | .frameEnc => 0x01
  | .rxStart => 0x02
  | .rxByte => 0x03
  | .rxTimeout => 0x04
  | .rxRead => 0x05
  | .bcdEnc => 0x10
  | .bcdDec => 0x11
  | .bswap => 0x20
  | .freqEnc => 0x30
  | .freqDec => 0x31
  | .timeEnc => 0x32
  | .timeDec => 0x33
  | .dateEnc => 0x34
  | .dateDec => 0x35

/-- The rows of 30_encoding.md R80 in its order. -/
def opcodeTable : List Opcode :=
  [.frameEnc, .rxStart, .rxByte, .rxTimeout, .rxRead, .bcdEnc, .bcdDec, .bswap,
   .freqEnc, .freqDec, .timeEnc, .timeDec, .dateEnc, .dateDec]

/-- The row a selector value selects: "each row is selected by the exact 8-bit value (mask 0xFF)" (30_encoding.md R80). -/
def Opcode.ofCode (v : Nat) : Option Opcode := opcodeTable.find? fun o => o.code == v

/-- A value on a port of width `w`. -/
def readPort (p : Port) (w v : Nat) : Except DecodeError (BitVec w) :=
  if v < 2 ^ w then .ok (BitVec.ofNat w v) else .error (.portTooWide p v)

/-- A value on a port of one bit. -/
def readBit (p : Port) (v : Nat) : Except DecodeError Bool :=
  if v = 0 then .ok false else if v = 1 then .ok true else .error (.portTooWide p v)

/-- A byte sequence, one number a byte, index 0 first (00_scope.md R9). -/
def readBytes (p : Port) : List Nat → Except DecodeError (List Byte)
  | [] => .ok []
  | v :: vs => do
    let b ← readPort p 8 v
    let bs ← readBytes p vs
    pure (b :: bs)

/-- A byte sequence `bytes[n]` whose length another port gives (30_encoding.md R81). -/
def readCounted (op : Opcode) (p : Port) (n : Nat) (vs : List Nat) : Except DecodeError (List Byte) :=
  if vs.length = n then readBytes p vs else .error (.wrongPorts op)

/-- The operand ports of each operation, in the order of 30_encoding.md R81. -/
def decodePorts (op : Opcode) (ports : List Nat) : Except DecodeError Instr :=
  match op with
  | .frameEnc =>
    match ports with
    | cmd :: hasSub :: sub :: plen :: payload => do
      let cmd ← readPort .cmd 8 cmd
      let hasSub ← readBit .hasSub hasSub
      let sub ← readPort .sub 8 sub
      let plen ← readPort .plen 8 plen
      let payload ← readCounted .frameEnc .payload plen.toNat payload
      pure (.frameEnc cmd hasSub sub payload)
    | _ => .error (.wrongPorts .frameEnc)
  | .rxStart =>
    match ports with
    | [] => .ok .rxStart
    | _ => .error (.wrongPorts .rxStart)
  | .rxByte =>
    match ports with
    | [b] => do
      let b ← readPort .b 8 b
      pure (.rxByte b)
    | _ => .error (.wrongPorts .rxByte)
  | .rxTimeout =>
    match ports with
    | [] => .ok .rxTimeout
    | _ => .error (.wrongPorts .rxTimeout)
  | .rxRead =>
    match ports with
    | [] => .ok .rxRead
    | _ => .error (.wrongPorts .rxRead)
  | .bcdEnc =>
    match ports with
    | [v] => do
      let v ← readPort .v 8 v
      pure (.bcdEnc v)
    | _ => .error (.wrongPorts .bcdEnc)
  | .bcdDec =>
    match ports with
    | [b] => do
      let b ← readPort .b 8 b
      pure (.bcdDec b)
    | _ => .error (.wrongPorts .bcdDec)
  | .bswap =>
    match ports with
    | n :: d => do
      let n ← readPort .n 8 n
      let d ← readCounted .bswap .d n.toNat d
      pure (.bswap d)
    | _ => .error (.wrongPorts .bswap)
  | .freqEnc =>
    match ports with
    | [hz] => do
      let hz ← readPort .hz 34 hz
      pure (.freqEnc hz)
    | _ => .error (.wrongPorts .freqEnc)
  | .freqDec =>
    match ports with
    | rlen :: resp => do
      let resp ← readCounted .freqDec .resp rlen resp
      pure (.freqDec resp)
    | _ => .error (.wrongPorts .freqDec)
  | .timeEnc =>
    match ports with
    | [hour, minute] => do
      let hour ← readPort .hour 8 hour
      let minute ← readPort .minute 8 minute
      pure (.timeEnc hour minute)
    | _ => .error (.wrongPorts .timeEnc)
  | .timeDec =>
    match ports with
    | rlen :: resp => do
      let resp ← readCounted .timeDec .resp rlen resp
      pure (.timeDec resp)
    | _ => .error (.wrongPorts .timeDec)
  | .dateEnc =>
    match ports with
    | [year, month, day] => do
      let year ← readPort .year 14 year
      let month ← readPort .month 8 month
      let day ← readPort .day 8 day
      pure (.dateEnc year month day)
    | _ => .error (.wrongPorts .dateEnc)
  | .dateDec =>
    match ports with
    | rlen :: resp => do
      let resp ← readCounted .dateDec .resp rlen resp
      pure (.dateDec resp)
    | _ => .error (.wrongPorts .dateDec)

/-- The decoder: the operation that a sequence of port values presents, or the name of what is wrong with it. A reserved selector
is reserved whatever the operand ports hold (30_encoding.md R83; log 17). -/
def decode : Request → Except DecodeError Instr
  | [] => .error .noSelector
  | op :: ports =>
    if op < 2 ^ 8 then
      match Opcode.ofCode op with
      | some o => decodePorts o ports
      | none => .error (.reservedOp op)
    else .error (.selectorTooWide op)

/-- A byte sequence as port values. -/
def writeBytes (bs : List Byte) : List Nat := bs.map BitVec.toNat

/-- The operand port values of an operation, in the order of 30_encoding.md R81. -/
def operandPorts : Instr → List Nat
  | .frameEnc cmd hasSub sub payload => cmd.toNat :: hasSub.toNat :: sub.toNat :: payload.length :: writeBytes payload
  | .rxStart => []
  | .rxByte b => [b.toNat]
  | .rxTimeout => []
  | .rxRead => []
  | .bcdEnc v => [v.toNat]
  | .bcdDec b => [b.toNat]
  | .bswap d => d.length :: writeBytes d
  | .freqEnc hz => [hz.toNat]
  | .freqDec resp => resp.length :: writeBytes resp
  | .timeEnc hour minute => [hour.toNat, minute.toNat]
  | .timeDec resp => resp.length :: writeBytes resp
  | .dateEnc year month day => [year.toNat, month.toNat, day.toNat]
  | .dateDec resp => resp.length :: writeBytes resp

/-- The encoder: the selector, then the operand ports. -/
def encode (i : Instr) : Request := i.opcode.code :: operandPorts i

/-- How many port values each operation has when every byte sequence is empty. -/
def Opcode.scalarPorts : Opcode → Nat
  | .frameEnc => 4
  | .rxStart => 0
  | .rxByte => 1
  | .rxTimeout => 0
  | .rxRead => 0
  | .bcdEnc => 1
  | .bcdDec => 1
  | .bswap => 1
  | .freqEnc => 1
  | .freqDec => 1
  | .timeEnc => 2
  | .timeDec => 1
  | .dateEnc => 3
  | .dateDec => 1

/-- The request of a word of spec/opcode_table.json. The table gives a row the 8 bits of `OP` and the operand ports no bits, so the
word is the selector and every operand port holds 0 (log 21). A word of another size is no row's: no selector. -/
def tableRequest (nbits w : Nat) : Request :=
  if nbits = 8 then
    match Opcode.ofCode w with
    | some o => w :: List.replicate o.scalarPorts 0
    | none => [w]
  else []

/-- The operation that the decoder reads from a word of spec/opcode_table.json. -/
def decodeTableWord (nbits w : Nat) : Option Instr :=
  match decode (tableRequest nbits w) with
  | .ok i => some i
  | .error _ => none

end Sys2Proof
end

