-- ==== Sys2Proof/Machine/State.lean ====
section
/-! DEFINITION. The state of the block: the four receiver registers of 10_state.md R20, and the model's own fields that carry the
parameters, the result ports and the steps presented to the block. -/

namespace Sys2Proof.Machine

/-- `RX_STATE`, the receiver's position (10_state.md R24). The values 6 and 7 of the 3-bit register are never written, and R24 lets
a model leave them out. -/
inductive RxState where
  | idle | hunt | pre2 | body | done | err
deriving DecidableEq, Repr

/-- A 4-bit status code of 60_exceptions.md R230, held by `RX_STATUS` (10_state.md R27) and by a result record. The reserved codes
0xC to 0xF are never produced (93_implementation_defined.md I20). -/
inductive Status where
  | ok | timeout | malformed | overflow | range | digit | badBcd | short | len | busy | empty | illop
deriving DecidableEq, Repr

/-- The results of an operation whose status is OK, by the ports of 30_encoding.md R81. -/
inductive Results where
  /-- No result port (RX_START). -/
  | none
  /-- `FRAME` of FRAME_ENC. -/
  | frame (bytes : List Byte)
  /-- `RESP` of RX_READ. -/
  | resp (bytes : List Byte)
  /-- `B` of BCD_ENC. -/
  | bcdByte (b : Byte)
  /-- `V` of BCD_DEC. -/
  | value (v : BitVec 8)
  /-- `R` of BSWAP. -/
  | swapped (bytes : List Byte)
  /-- `F` of FREQ_ENC. -/
  | freqField (bytes : List Byte)
  /-- `HZ` of FREQ_DEC. -/
  | hz (v : BitVec 34)
  /-- `T` of TIME_ENC. -/
  | timeField (bytes : List Byte)
  /-- `HOUR` and `MINUTE` of TIME_DEC. -/
  | time (hour minute : BitVec 8)
  /-- `D` of DATE_ENC. -/
  | dateField (bytes : List Byte)
  /-- `YEAR`, `MONTH` and `DAY` of DATE_DEC. -/
  | date (year : BitVec 14) (month day : BitVec 8)
deriving DecidableEq, Repr

/-- The result record `(STATUS, results)` of a step the host issued (30_encoding.md R82). A record that was raised has no value for
the results: "when `STATUS ≠ OK`, the results are absent". -/
inductive Record where
  /-- `return (OK, results)`. -/
  | ok (results : Results)
  /-- `raise status` (00_scope.md R10). -/
  | raised (status : Status)
deriving DecidableEq, Repr

/-- What is presented to the block next: an operation or transport event (30_encoding.md R80), or the host asserting reset
(70_reset_and_hazards.md R260; log 12). -/
inductive Input where
  | request (r : Request)
  | reset
deriving DecidableEq, Repr

/-- Why the block has no step. Every status of 60_exceptions.md R230 is a result, never a fault (R247). -/
inductive Fault where
  /-- Raised by RX_BYTE and RX_TIMEOUT while no read is pending: "neither event exists: the model has no such step"
  (40_frame_codec.md R109, 60_exceptions.md R247(a)). Safe: the model stops where the hardware has no step (log 9). -/
  | noPendingRead
deriving DecidableEq, Repr

/-- Why an input has no meaning. -/
inductive Refusal where
  /-- Raised by an arm of exec for an instruction without a meaning. No arm raises it. Safe. -/
  | notModelled (mnemonic : String)
  /-- Raised by the fetch for a list of port values that is no request: no selector, a value wider than its port, or the wrong
  number of values (30_encoding.md R81 gives each port its width). No host can present one. Safe (log 5). -/
  | badRequest (why : DecodeError)
deriving DecidableEq, Repr

/-- The block. The four `rx` fields are its complete architectural state (10_state.md R20); the others are the model's own. -/
structure State where
  /-- The instance parameters (00_scope.md R5): fixed, log 1. -/
  params : Params
  /-- `RX_STATE` (10_state.md R24). -/
  rxState : RxState
  /-- `RX_LEN` (10_state.md R25). -/
  rxLen : Nat
  /-- `RX_STATUS` (10_state.md R27). -/
  rxStatus : Status
  /-- `RX_BUF` (10_state.md R26), index 0 first. -/
  rxBuf : List Byte
  /-- The record of the latest step, if it gave the host one (30_encoding.md R82, 10_state.md R23): log 6. -/
  out : Option Record
  /-- What the host and the transport present, in the total order of steps (20_memory.md R62): log 2. -/
  inputs : List Input
  /-- The number of reset actions so far, which only draws the free contents of `RX_BUF`: log 8. -/
  resets : Nat
deriving DecidableEq, Repr

/-- The machine right after power-on (10_state.md R32, 70_reset_and_hazards.md R260). R32 gives `RX_BUF` no value: zeros, log 7. -/
def State.reset : State where
  params := Config.block
  rxState := .idle
  rxLen := 0
  rxStatus := .ok
  rxBuf := List.replicate Config.block.nRx 0
  out := none
  inputs := []
  resets := 0

end Sys2Proof.Machine
end

