-- ==== Sys2Proof/Machine/Flags.lean ====
section
/-! DEFINITION. The block has no flags (10_state.md R22): an operation's outcome is its status. This file holds the numbers of the
status codes and of the receiver states, and what a record's status and results are. -/

namespace Sys2Proof.Machine

/-- The 4-bit code of a status (60_exceptions.md R230). -/
def Status.code : Status → BitVec 4
  | .ok => 0x0
  | .timeout => 0x1
  | .malformed => 0x2
  | .overflow => 0x3
  | .range => 0x4
  | .digit => 0x5
  | .badBcd => 0x6
  | .short => 0x7
  | .len => 0x8
  | .busy => 0x9
  | .empty => 0xA
  | .illop => 0xB

/-- The 3-bit value of `RX_STATE` (10_state.md R24). -/
def RxState.code : RxState → BitVec 3
  | .idle => 0
  | .hunt => 1
  | .pre2 => 2
  | .body => 3
  | .done => 4
  | .err => 5

/-- `pending`: the receiver has one `ReadByte()` outstanding at the transport (10_state.md R29, 40_frame_codec.md R105). -/
def RxState.pending : RxState → Bool
  | .idle => false
  | .hunt => true
  | .pre2 => true
  | .body => true
  | .done => false
  | .err => false

/-- `STATUS` of a record (30_encoding.md R82). -/
def Record.status : Record → Status
  | .ok _ => .ok
  | .raised s => s

/-- The results of a record, absent when it was raised (30_encoding.md R82). -/
def Record.results : Record → Option Results
  | .ok r => some r
  | .raised _ => none

end Sys2Proof.Machine
end

