-- ==== Sys2Proof/Machine/Ops.lean ====
section
/-! DEFINITION. The named operations over the state: the pseudocode primitives of 00_scope.md R10, and the reset action.

The block has no traps, no exception entry and no return from one (60_exceptions.md R236, R237); `State.raise` is the primitive
that ends an operation with a status. -/

namespace Sys2Proof.Machine

/-- What a meaning answers. -/
abbrev Answer := Host.Outcome State Fault Refusal

/-- The end of an operation: its record is on the result ports (30_encoding.md R82). -/
def State.give (s : State) (r : Record) : Answer := .next { s with out := some r }

/-- `return (OK, results)` (00_scope.md R10, 30_encoding.md R82). -/
def State.answer (s : State) (r : Results) : Answer := s.give (.ok r)

/-- `raise status`: the result is the status alone, and no state changes but what came before (00_scope.md R10, 60_exceptions.md R236). -/
def State.raise (s : State) (st : Status) : Answer := s.give (.raised st)

/-- The end of a transport event: no record goes to the host (30_encoding.md R82). -/
def State.silent (s : State) : Answer := .next { s with out := none }

/-- The read of the transport is pending (10_state.md R29). -/
def State.pending (s : State) : Bool := s.rxState.pending

/-- `MemWrite(addr, 1, b)`: `RX_BUF[addr] <- b` (00_scope.md R10). -/
def State.memWrite (s : State) (addr : Nat) (b : Byte) : State := { s with rxBuf := s.rxBuf.set addr b }

/-- `MemRead(addr, n)`: the `n` bytes of `RX_BUF` from index `addr` (00_scope.md R10). -/
def State.memRead (s : State) (addr n : Nat) : List Byte := (s.rxBuf.drop addr).take n

/-- The bytes collected since the doubled preamble: `RX_BUF[0..RX_LEN-1]`, `MemRead(0, RX_LEN)` (40_frame_codec.md R115). -/
def State.response (s : State) : List Byte := s.memRead 0 s.rxLen

/-- Append and overflow (40_frame_codec.md R112), for a byte that is not the terminator. -/
def State.appendByte (s : State) (b : Byte) : State :=
  if s.rxLen < s.params.nRx then
    { s.memWrite s.rxLen b with rxLen := s.rxLen + 1 }
  else
    { s with rxStatus := .overflow, rxLen := 0, rxState := .err }

/-- A failed receive: the reason is held in `RX_STATUS` (40_frame_codec.md R107, R111). -/
def State.failReceive (s : State) (st : Status) : State := { s with rxStatus := st, rxState := .err }

/-- The free contents of `RX_BUF` after the reset action of number `k` (log 8). -/
def freshBuffer (p : Params) (k : Nat) : List Byte := (List.range p.nRx).map (Config.rxBufAfterReset k)

/-- The reset action (70_reset_and_hazards.md R260, 10_state.md R32): the receiver goes to IDLE with nothing held, `RX_BUF` holds no
observable contents, and the parameters stay (R261). -/
def State.applyReset (s : State) : State :=
  { s with
    rxState := .idle
    rxLen := 0
    rxStatus := .ok
    rxBuf := freshBuffer s.params s.resets
    out := none
    resets := s.resets + 1 }

end Sys2Proof.Machine
end

