-- ==== Sys2Proof/Machine/Bcd.lean ====
section
/-! DEFINITION. The BCD nibble-pair codec (41_bcd_codec.md). -/

namespace Sys2Proof.Machine

/-- BCD_ENC (41_bcd_codec.md R140). -/
def execBcdEnc (v : BitVec 8) (s : State) : Answer :=
  if 99 < v.toNat then s.raise .range else s.answer (.bcdByte (bcdByte v.toNat))

/-- BCD_DEC (41_bcd_codec.md R141). -/
def execBcdDec (b : Byte) (s : State) : Answer :=
  if isBcd b then s.answer (.value (BitVec.ofNat 8 (bcdValue b))) else s.raise .badBcd

end Sys2Proof.Machine
end

