-- ==== Sys2Proof/Machine/Field.lean ====
section
/-! DEFINITION. The frequency, time and date field codec (43_field_codec.md). -/

namespace Sys2Proof.Machine

/-- The shape every field decoder has (43_field_codec.md R210, R214): the last `k` bytes of the response, SHORT before BADBCD, and
no range check (R211). -/
def decodeTail (k : Nat) (resp : List Byte) (s : State) (read : List Byte → Results) : Answer :=
  if resp.length < k then s.raise .short
  else if (tailBytes k resp).all isBcd then s.answer (read (tailBytes k resp))
  else s.raise .badBcd

/-- FREQ_ENC (43_field_codec.md R180). -/
def execFreqEnc (hz : BitVec 34) (s : State) : Answer :=
  if 10 ^ 10 ≤ hz.toNat then s.raise .range else s.answer (.freqField (freqBytes hz.toNat))

/-- The value of a frequency field, on the 34-bit `HZ` port (43_field_codec.md R181). -/
def freqResults (t : List Byte) : Results := .hz (BitVec.ofNat 34 (freqValue t))

/-- FREQ_DEC (43_field_codec.md R181). -/
def execFreqDec (resp : List Byte) (s : State) : Answer := decodeTail 5 resp s freqResults

/-- The record of TIME_ENC (43_field_codec.md R190): RANGE before DIGIT. -/
def timeEncRecord (p : Params) (hour minute : BitVec 8) : Record :=
  if 23 < hour.toNat ∨ 59 < minute.toNat then .raised .range
  else if p.timePad = false ∧ (hour.toNat ≤ 9 ∨ minute.toNat ≤ 9) then .raised .digit
  else .ok (.timeField [bcdByte hour.toNat, bcdByte minute.toNat])

/-- TIME_ENC (43_field_codec.md R190). -/
def execTimeEnc (hour minute : BitVec 8) (s : State) : Answer := s.give (timeEncRecord s.params hour minute)

/-- The number a BCD byte holds, on an 8-bit result port (30_encoding.md R81). -/
def bcdPort (b : Byte) : BitVec 8 := BitVec.ofNat 8 (bcdValue b)

/-- The hour and the minute of a time field (43_field_codec.md R191). -/
def timeResults (t : List Byte) : Results := .time (bcdPort (t.getD 0 0)) (bcdPort (t.getD 1 0))

/-- TIME_DEC (43_field_codec.md R191). -/
def execTimeDec (resp : List Byte) (s : State) : Answer := decodeTail 2 resp s timeResults

/-- DATE_ENC (43_field_codec.md R200): no calendar check. -/
def execDateEnc (year : BitVec 14) (month day : BitVec 8) (s : State) : Answer :=
  if year.toNat < 1000 ∨ 9999 < year.toNat then s.raise .range
  else if month.toNat < 1 ∨ 12 < month.toNat then s.raise .range
  else if day.toNat < 1 ∨ 31 < day.toNat then s.raise .range
  else s.answer (.dateField
    [bcdByte (year.toNat / 100), bcdByte (year.toNat % 100), bcdByte month.toNat, bcdByte day.toNat])

/-- The year, month and day of a date field (43_field_codec.md R201). -/
def dateResults (t : List Byte) : Results :=
  .date (BitVec.ofNat 14 (100 * bcdValue (t.getD 0 0) + bcdValue (t.getD 1 0))) (bcdPort (t.getD 2 0)) (bcdPort (t.getD 3 0))

/-- DATE_DEC (43_field_codec.md R201). -/
def execDateDec (resp : List Byte) (s : State) : Answer := decodeTail 4 resp s dateResults

end Sys2Proof.Machine
end

