-- ==== Sys2Proof/Machine/Frame.lean ====
section
/-! DEFINITION. The frame encoder (40_frame_codec.md section 1). -/

namespace Sys2Proof.Machine

/-- The outbound frame of 30_encoding.md R70. -/
def frameBytes (p : Params) (cmd : Byte) (hasSub : Bool) (sub : Byte) (payload : List Byte) : List Byte :=
  [preambleByte, preambleByte, p.radioAddr, p.ctrlAddr, cmd] ++ (if hasSub then [sub] else []) ++ payload ++ [terminatorByte]

/-- FRAME_ENC (40_frame_codec.md R100): the operands are not checked for delimiter values (R102). -/
def execFrameEnc (cmd : Byte) (hasSub : Bool) (sub : Byte) (payload : List Byte) (s : State) : Answer :=
  if s.params.pMax < payload.length then s.raise .len
  else s.answer (.frame (frameBytes s.params cmd hasSub sub payload))

end Sys2Proof.Machine
end

