-- ==== Sys2Proof/Machine/Receiver.lean ====
section
/-! DEFINITION. The frame decoder, one step per operation or transport event (40_frame_codec.md section 2, the table of R103). -/

namespace Sys2Proof.Machine

/-- RX_START (40_frame_codec.md R104). -/
def execRxStart (s : State) : Answer :=
  if s.pending then s.raise .busy
  else State.answer { s with rxLen := 0, rxStatus := .ok, rxState := .hunt } .none

/-- RX_BYTE (40_frame_codec.md R110): hunt (R106), the doubled preamble (R107), the body (R108, R112). There is no such step while
no read is pending (R109). -/
def execRxByte (b : Byte) (s : State) : Answer :=
  match s.rxState with
  | .hunt => if b = preambleByte then State.silent { s with rxState := .pre2 } else s.silent
  | .pre2 => if b = preambleByte then State.silent { s with rxState := .body } else (s.failReceive .malformed).silent
  | .body => if b = terminatorByte then State.silent { s with rxState := .done } else (s.appendByte b).silent
  | .idle => .fault .noPendingRead
  | .done => .fault .noPendingRead
  | .err => .fault .noPendingRead

/-- RX_TIMEOUT (40_frame_codec.md R111): the bytes collected so far are dropped. There is no such step while no read is pending
(R109). -/
def execRxTimeout (s : State) : Answer :=
  if s.pending then (State.failReceive { s with rxLen := 0 } .timeout).silent
  else .fault .noPendingRead

/-- RX_READ (40_frame_codec.md R115). -/
def execRxRead (s : State) : Answer :=
  match s.rxState with
  | .hunt => s.raise .busy
  | .pre2 => s.raise .busy
  | .body => s.raise .busy
  | .idle => s.raise .empty
  | .done => State.answer { s with rxLen := 0, rxState := .idle } (.resp s.response)
  | .err => State.raise { s with rxStatus := .ok, rxState := .idle } s.rxStatus

end Sys2Proof.Machine
end

