-- ==== Sys2Proof/Machine/Swap.lean ====
section
/-! DEFINITION. The byte-order swapper (42_byte_swap.md). -/

namespace Sys2Proof.Machine

/-- BSWAP (42_byte_swap.md R160), with `N` the length of `D`. -/
def execBswap (d : List Byte) (s : State) : Answer :=
  if d.length < 1 ∨ 5 < d.length then s.raise .len else s.answer (.swapped d.reverse)

end Sys2Proof.Machine
end

