-- ==== Sys2Proof/Machine/Dispatch.lean ====
section
/-! DEFINITION. Each operation's meaning, one arm a row of 30_encoding.md R80. -/

namespace Sys2Proof.Machine

def exec (i : Instr) (s : State) : Host.Outcome State Fault Refusal :=
  match i with
  | .frameEnc cmd hasSub sub payload => Sys2Proof.Machine.execFrameEnc cmd hasSub sub payload s
  | .rxStart => Sys2Proof.Machine.execRxStart s
  | .rxByte b => Sys2Proof.Machine.execRxByte b s
  | .rxTimeout => Sys2Proof.Machine.execRxTimeout s
  | .rxRead => Sys2Proof.Machine.execRxRead s
  | .bcdEnc v => Sys2Proof.Machine.execBcdEnc v s
  | .bcdDec b => Sys2Proof.Machine.execBcdDec b s
  | .bswap d => Sys2Proof.Machine.execBswap d s
  | .freqEnc hz => Sys2Proof.Machine.execFreqEnc hz s
  | .freqDec resp => Sys2Proof.Machine.execFreqDec resp s
  | .timeEnc hour minute => Sys2Proof.Machine.execTimeEnc hour minute s
  | .timeDec resp => Sys2Proof.Machine.execTimeDec resp s
  | .dateEnc year month day => Sys2Proof.Machine.execDateEnc year month day s
  | .dateDec resp => Sys2Proof.Machine.execDateDec resp s

end Sys2Proof.Machine
end

