-- ==== Sys2Proof/Machine/Fetch.lean ====
section
/-! DEFINITION. How a step takes what the host or the transport presents (30_encoding.md R80; log 2). -/

namespace Sys2Proof.Machine

/-- Run what a request presents: an operation of the table by its meaning, a reserved selector by ILLOP with nothing changed
(30_encoding.md R83), and a list of values that is no request by a refusal (log 5). -/
def runRequest (r : Request) (s : State) : Answer :=
  match decode r with
  | .ok i => exec i s
  | .error (.reservedOp _) => s.raise .illop
  | .error .noSelector => .refused (.badRequest .noSelector)
  | .error (.selectorTooWide op) => .refused (.badRequest (.selectorTooWide op))
  | .error (.wrongPorts op) => .refused (.badRequest (.wrongPorts op))
  | .error (.portTooWide port value) => .refused (.badRequest (.portTooWide port value))

/-- Run one input: a request, or the reset action (70_reset_and_hazards.md R260). -/
def runInput (x : Input) (s : State) : Answer :=
  match x with
  | .request r => runRequest r s
  | .reset => .next s.applyReset

/-- Take the first input and run it. With nothing presented the block keeps its state unchanged (60_exceptions.md R246; log 3). -/
def runNext (s : State) : Answer :=
  match s.inputs with
  | [] => .next s
  | x :: rest => runInput x { s with inputs := rest }

end Sys2Proof.Machine
end

