-- ==== Sys2Proof/Machine/Step.lean ====
section
/-! DEFINITION. One step of the machine, and where the host's checks put an instruction for the next step. -/

namespace Sys2Proof.Machine

/-- One step: one operation, one transport event or one reset action (00_scope.md R14, 20_memory.md R58). -/
def step (s : State) : Host.Outcome State Fault Refusal := runNext s

/-- `s` with the instruction of a word of spec/opcode_table.json presented first, so that the next step runs it (log 2, log 21). -/
def State.withFetchWord (s : State) (nbits w : Nat) : State :=
  { s with inputs := .request (tableRequest nbits w) :: s.inputs }

end Sys2Proof.Machine
end

