-- ==== Sys2Proof/Machine/Pseudo.lean ====
section
/-! DEFINITION. The pseudo-instructions of 30_encoding.md R85, and the receiver as one function of the transport's events
(40_frame_codec.md R116). -/

namespace Sys2Proof.Machine

/-- Run operations one after the other, stopping at the first that has no step. -/
def runAll : List Instr → State → Answer
  | [], s => .next s
  | i :: is, s =>
    match exec i s with
    | .next t => runAll is t
    | .fault f => .fault f
    | .refused r => .refused r

/-- `RX_FEED` (30_encoding.md R85): a feed that outlives the frame is stuck. -/
def rxFeed (bs : List Byte) : List Instr := bs.map .rxByte

/-- `READ_FRAME` (30_encoding.md R85). -/
def readFrame (bs : List Byte) : List Instr := .rxStart :: (rxFeed bs ++ [.rxRead])

/-- The field bytes that a field encoder's record carries. -/
def fieldOf : Option Record → Option (List Byte)
  | some (.ok (.freqField f)) => some f
  | some (.ok (.timeField t)) => some t
  | some (.ok (.dateField d)) => some d
  | _ => none

/-- The `SEND_` forms of 30_encoding.md R85: the field encoder, then FRAME_ENC with its field as payload; if the encoder's status is
not OK, FRAME_ENC is not issued and the status is the encoder's. -/
def sendField (enc : Instr) (cmd : Byte) (hasSub : Bool) (sub : Byte) (s : State) : Answer :=
  match exec enc s with
  | .next t =>
    match fieldOf t.out with
    | some f => exec (.frameEnc cmd hasSub sub f) t
    | none => .next t
  | .fault f => .fault f
  | .refused r => .refused r

/-- `SEND_FREQ` (30_encoding.md R85). -/
def sendFreq (cmd : Byte) (hasSub : Bool) (sub : Byte) (hz : BitVec 34) (s : State) : Answer :=
  sendField (.freqEnc hz) cmd hasSub sub s

/-- `SEND_TIME` (30_encoding.md R85). -/
def sendTime (cmd : Byte) (hasSub : Bool) (sub : Byte) (hour minute : BitVec 8) (s : State) : Answer :=
  sendField (.timeEnc hour minute) cmd hasSub sub s

/-- `SEND_DATE` (30_encoding.md R85). -/
def sendDate (cmd : Byte) (hasSub : Bool) (sub : Byte) (year : BitVec 14) (month day : BitVec 8) (s : State) : Answer :=
  sendField (.dateEnc year month day) cmd hasSub sub s

/-- One event of the transport: a byte, or a timeout or end of stream (40_frame_codec.md R109). -/
inductive RxEvent where
  | byte (b : Byte)
  | timeout
deriving DecidableEq, Repr

/-- The step of an event (40_frame_codec.md R109). -/
def RxEvent.instr : RxEvent → Instr
  | .byte b => .rxByte b
  | .timeout => .rxTimeout

/-- The transport delivers events while the receiver is pending; "events after the one that ends the receive are never delivered"
(40_frame_codec.md R116, R109). -/
def deliver : List RxEvent → State → Answer
  | [], s => .next s
  | e :: es, s =>
    if s.pending then
      match exec e.instr s with
      | .next t => deliver es t
      | .fault f => .fault f
      | .refused r => .refused r
    else .next s

/-- `body(acc, evs)` of 40_frame_codec.md R116; none is "no result: receiver still pending". -/
def bodyResult (nRx : Nat) (acc : List Byte) : List RxEvent → Option Record
  | [] => none
  | .timeout :: _ => some (.raised .timeout)
  | .byte b :: es =>
    if b = terminatorByte then some (.ok (.resp acc))
    else if acc.length = nRx then some (.raised .overflow)
    else bodyResult nRx (acc ++ [b]) es

/-- `pre2(evs)` of 40_frame_codec.md R116. -/
def pre2Result (nRx : Nat) : List RxEvent → Option Record
  | [] => none
  | .timeout :: _ => some (.raised .timeout)
  | .byte b :: es => if b = preambleByte then bodyResult nRx [] es else some (.raised .malformed)

/-- `hunt(evs)`, which is `read_frame(evs)`, of 40_frame_codec.md R116. -/
def huntResult (nRx : Nat) : List RxEvent → Option Record
  | [] => none
  | .timeout :: _ => some (.raised .timeout)
  | .byte b :: es => if b = preambleByte then pre2Result nRx es else huntResult nRx es

end Sys2Proof.Machine
end

