-- ==== Sys2Proof/Safety.lean ====
section
/-! DEFINITION. What counts as a good state and a safe run, in the terms the statements use. -/

namespace Sys2Proof.Machine

/-- The state invariants of 10_state.md R30, (a) to (e), with the depth of `RX_BUF` (R26: a file of `N_RX` bytes) and the legal
values of the parameters (00_scope.md R5). -/
structure State.Inv (s : State) : Prop where
  /-- 00_scope.md R5. -/
  legal : s.params.legal
  /-- 10_state.md R26. -/
  depth : s.rxBuf.length = s.params.nRx
  /-- R30 (a). -/
  lenBound : s.rxLen ≤ s.params.nRx
  /-- R30 (b). -/
  lenZero : s.rxState = .idle ∨ s.rxState = .hunt ∨ s.rxState = .pre2 ∨ s.rxState = .err → s.rxLen = 0
  /-- R30 (c). -/
  statusOk : s.rxState ≠ .err → s.rxStatus = .ok
  /-- R30 (d). -/
  statusErr : s.rxState = .err → s.rxStatus = .timeout ∨ s.rxStatus = .malformed ∨ s.rxStatus = .overflow
  /-- R30 (e). -/
  noTerminator : s.rxState = .body ∨ s.rxState = .done → ∀ b ∈ s.rxBuf.take s.rxLen, b ≠ terminatorByte

/-- What a state is made of besides the contents of `RX_BUF` at and above `RX_LEN`, which no operation can observe (10_state.md R26). -/
def State.sameObservable (s t : State) : Prop :=
  t = { s with rxBuf := t.rxBuf } ∧ t.rxBuf.length = s.rxBuf.length ∧ t.rxBuf.take t.rxLen = s.rxBuf.take s.rxLen

/-- An operation can be presented: a receive event only answers a pending read (40_frame_codec.md R109). -/
def State.admits (s : State) (i : Instr) : Bool :=
  match i.opcode.issuedBy with
  | .transport => s.pending
  | .host => true

/-- An input can be presented: an operation that the state admits, a reserved selector (30_encoding.md R83), or reset. -/
def State.admitsInput (s : State) : Input → Bool
  | .reset => true
  | .request r =>
    match decode r with
    | .ok i => s.admits i
    | .error (.reservedOp _) => true
    | .error _ => false

/-- The operations that are pure functions of their operands and the parameters (00_scope.md R14(c), 20_memory.md R59(c)). -/
def isPure : Instr → Bool
  | .frameEnc _ _ _ _ => true
  | .rxStart => false
  | .rxByte _ => false
  | .rxTimeout => false
  | .rxRead => false
  | .bcdEnc _ => true
  | .bcdDec _ => true
  | .bswap _ => true
  | .freqEnc _ => true
  | .freqDec _ => true
  | .timeEnc _ _ => true
  | .timeDec _ => true
  | .dateEnc _ _ _ => true
  | .dateDec _ => true

/-- The inputs that present a list of operations one after the other. -/
def presenting (is : List Instr) : List Input := is.map fun i => .request (encode i)

end Sys2Proof.Machine
end

