-- ==== Sys2Proof/Certificates/Slice0/Obligations.lean ====
section
/-! DEFINITION. The statements for the provers. `{ s with … }` names every field that may differ, so each such equation is also the
operation's frame: every register, parameter and input it does not name is unchanged. -/

open Sys2Proof Sys2Proof.Machine

/-! ### Operand helpers and the BCD codec -/

/-- 00_scope.md R11: `isbcd`, `bcdv` and `bcdb` of a byte, by its two hexadecimal digits. -/
def Obligations.BcdHelpersFollowNibbles : Prop :=
  (∀ b : Byte, isBcd b = true ↔ b.toNat / 16 ≤ 9 ∧ b.toNat % 16 ≤ 9) ∧
  (∀ b : Byte, isBcd b = true → bcdValue b = 10 * (b.toNat / 16) + b.toNat % 16) ∧
  (∀ v : Nat, v ≤ 99 → (bcdByte v).toNat = 16 * (v / 10) + v % 10)

/-- 30_encoding.md R75: the 156 bytes with a nibble above 9 are rejected with BADBCD by BCD_DEC and by every field decoder whose tail
holds one. -/
def Obligations.NonBcdBytesRejected : Prop :=
  ((List.range 256).filter fun v => !isBcd (BitVec.ofNat 8 v)).length = 156 ∧
  (∀ b : Byte, isBcd b = false ↔ 0xA ≤ b.toNat / 16 ∨ 0xA ≤ b.toNat % 16) ∧
  ∀ (s : State) (b : Byte), isBcd b = false →
    exec (.bcdDec b) s = .next { s with out := some (.raised .badBcd) } ∧
    ∀ p t : List Byte, b ∈ t →
      (t.length = 5 → exec (.freqDec (p ++ t)) s = .next { s with out := some (.raised .badBcd) }) ∧
      (t.length = 2 → exec (.timeDec (p ++ t)) s = .next { s with out := some (.raised .badBcd) }) ∧
      (t.length = 4 → exec (.dateDec (p ++ t)) s = .next { s with out := some (.raised .badBcd) })

/-- 41_bcd_codec.md R140: BCD_ENC of a value up to 99 is its tens and units nibbles; a larger value is RANGE. -/
def Obligations.BcdEncPacksTwoDigits : Prop :=
  ∀ (s : State) (v : BitVec 8),
    (v.toNat ≤ 99 → ∃ b : Byte, b.toNat = 16 * (v.toNat / 10) + v.toNat % 10 ∧
      exec (.bcdEnc v) s = .next { s with out := some (.ok (.bcdByte b)) }) ∧
    (99 < v.toNat → exec (.bcdEnc v) s = .next { s with out := some (.raised .range) })

/-- 41_bcd_codec.md R141: BCD_DEC of a byte with two decimal nibbles is ten times the high one plus the low one; any other byte is
BADBCD. -/
def Obligations.BcdDecReadsTwoDigits : Prop :=
  ∀ (s : State) (b : Byte),
    (b.toNat / 16 ≤ 9 ∧ b.toNat % 16 ≤ 9 → ∃ v : BitVec 8, v.toNat = 10 * (b.toNat / 16) + b.toNat % 16 ∧
      exec (.bcdDec b) s = .next { s with out := some (.ok (.value v)) }) ∧
    (9 < b.toNat / 16 ∨ 9 < b.toNat % 16 → exec (.bcdDec b) s = .next { s with out := some (.raised .badBcd) })

/-- 41_bcd_codec.md R142: BCD_ENC is a bijection from 0..99 onto the BCD bytes and BCD_DEC is its inverse. -/
def Obligations.BcdRoundTrip : Prop :=
  (∀ (s : State) (v : BitVec 8), v.toNat ≤ 99 → ∃ b : Byte, isBcd b = true ∧
    exec (.bcdEnc v) s = .next { s with out := some (.ok (.bcdByte b)) } ∧
    exec (.bcdDec b) s = .next { s with out := some (.ok (.value v)) }) ∧
  (∀ (s : State) (b : Byte), isBcd b = true → ∃ v : BitVec 8, v.toNat ≤ 99 ∧
    exec (.bcdDec b) s = .next { s with out := some (.ok (.value v)) } ∧
    exec (.bcdEnc v) s = .next { s with out := some (.ok (.bcdByte b)) })

/-- 41_bcd_codec.md R144: the two hexadecimal characters of a BCD byte are the two decimal digits of its value, and the decimal string
of a value from 10 to 99, read as hexadecimal text, is its BCD byte. -/
def Obligations.TextMethodAgrees : Prop :=
  (∀ b : Byte, isBcd b = true → [b.toNat / 16, b.toNat % 16] = [bcdValue b / 10, bcdValue b % 10]) ∧
  (∀ v : Nat, 10 ≤ v → v ≤ 99 → (bcdByte v).toNat = Nat.ofDigits 16 (Nat.digits 10 v))

/-! ### The frame encoder -/

/-- 40_frame_codec.md R100: FRAME_ENC of a payload within `P_MAX` is the frame; of a longer one, LEN. -/
def Obligations.FrameEncBuildsFrame : Prop :=
  ∀ (s : State) (cmd : Byte) (hasSub : Bool) (sub : Byte) (payload : List Byte),
    (payload.length ≤ s.params.pMax →
      exec (.frameEnc cmd hasSub sub payload) s = .next { s with out := some (.ok (.frame
        ([0xFE, 0xFE, s.params.radioAddr, s.params.ctrlAddr, cmd] ++ (if hasSub then [sub] else []) ++ payload ++ [0xFD]))) }) ∧
    (s.params.pMax < payload.length →
      exec (.frameEnc cmd hasSub sub payload) s = .next { s with out := some (.raised .len) })

/-- 30_encoding.md R70: the value at every offset of an outbound frame, and its length. -/
def Obligations.FrameLayoutByOffset : Prop :=
  ∀ (s : State) (cmd : Byte) (hasSub : Bool) (sub : Byte) (payload : List Byte), payload.length ≤ s.params.pMax →
    ∃ f : List Byte, exec (.frameEnc cmd hasSub sub payload) s = .next { s with out := some (.ok (.frame f)) } ∧
      f.length = 6 + hasSub.toNat + payload.length ∧
      f[0]? = some 0xFE ∧ f[1]? = some 0xFE ∧ f[2]? = some s.params.radioAddr ∧ f[3]? = some s.params.ctrlAddr ∧
      f[4]? = some cmd ∧ (hasSub = true → f[5]? = some sub) ∧
      (∀ i, i < payload.length → f[5 + hasSub.toNat + i]? = payload[i]?) ∧
      f[5 + hasSub.toNat + payload.length]? = some 0xFD

/-- 40_frame_codec.md R101: the delimiters and length of every frame; a frame whose envelope and payload hold no 0xFD, fed to a
receiver that is not receiving and is deep enough, is read back whole; and if they hold no 0xFE either, the frame has exactly two
0xFE and one 0xFD. -/
def Obligations.EncodedFrameReadBack : Prop :=
  ∀ (s : State) (cmd : Byte) (hasSub : Bool) (sub : Byte) (payload : List Byte),
    s.pending = false → s.rxBuf.length = s.params.nRx → payload.length ≤ s.params.pMax →
    ∃ (f : List Byte) (t : State), exec (.frameEnc cmd hasSub sub payload) s = .next t ∧ t.out = some (.ok (.frame f)) ∧
      f[0]? = some 0xFE ∧ f[1]? = some 0xFE ∧ f.getLast? = some 0xFD ∧ f.length = 6 + hasSub.toNat + payload.length ∧
      (0xFD ∉ [s.params.radioAddr, s.params.ctrlAddr, cmd] ++ (if hasSub then [sub] else []) ++ payload →
        (f.length - 3 ≤ s.params.nRx →
          ∃ u : State, runAll (readFrame f) t = .next u ∧ u.out = some (.ok (.resp (f.drop 2).dropLast)) ∧
            u.rxState = .idle ∧ u.rxLen = 0 ∧ u.rxStatus = .ok) ∧
        (0xFE ∉ [s.params.radioAddr, s.params.ctrlAddr, cmd] ++ (if hasSub then [sub] else []) ++ payload →
          f.count 0xFE = 2 ∧ f.count 0xFD = 1))

/-! ### The receiver -/

/-- 40_frame_codec.md R104: RX_START begins a receive unless one is in progress, when it is BUSY. -/
def Obligations.RxStartBeginsReceive : Prop :=
  ∀ s : State,
    (s.rxState = .idle ∨ s.rxState = .done ∨ s.rxState = .err →
      exec .rxStart s = .next { s with rxState := .hunt, rxLen := 0, rxStatus := .ok, out := some (.ok .none) }) ∧
    (s.rxState = .hunt ∨ s.rxState = .pre2 ∨ s.rxState = .body →
      exec .rxStart s = .next { s with out := some (.raised .busy) })

/-- 40_frame_codec.md R106: the hunt for the first 0xFE. -/
def Obligations.HuntWaitsForPreamble : Prop :=
  ∀ (s : State) (b : Byte), s.rxState = .hunt →
    (b = 0xFE → exec (.rxByte b) s = .next { s with rxState := .pre2, out := none }) ∧
    (b ≠ 0xFE → exec (.rxByte b) s = .next { s with out := none })

/-- 40_frame_codec.md R107: the second 0xFE, or MALFORMED. -/
def Obligations.SecondPreambleRequired : Prop :=
  ∀ (s : State) (b : Byte), s.rxState = .pre2 →
    (b = 0xFE → exec (.rxByte b) s = .next { s with rxState := .body, out := none }) ∧
    (b ≠ 0xFE → exec (.rxByte b) s = .next { s with rxState := .err, rxStatus := .malformed, out := none })

/-- 40_frame_codec.md R108 and R112: in the body 0xFD ends the frame, any other byte is appended, and one beyond `N_RX` overflows. -/
def Obligations.BodyByteEndsAppendsOrOverflows : Prop :=
  ∀ (s : State) (b : Byte), s.rxState = .body →
    (b = 0xFD → exec (.rxByte b) s = .next { s with rxState := .done, out := none }) ∧
    (b ≠ 0xFD → s.rxLen < s.params.nRx →
      exec (.rxByte b) s = .next { s with rxBuf := s.rxBuf.set s.rxLen b, rxLen := s.rxLen + 1, out := none }) ∧
    (b ≠ 0xFD → s.params.nRx ≤ s.rxLen →
      exec (.rxByte b) s = .next { s with rxState := .err, rxStatus := .overflow, rxLen := 0, out := none })

/-- 40_frame_codec.md R111: a timeout while a read is pending, whichever of the three states the receiver is in; otherwise no step. -/
def Obligations.TimeoutFailsReceive : Prop :=
  ∀ s : State,
    (s.rxState = .hunt ∨ s.rxState = .pre2 ∨ s.rxState = .body →
      exec .rxTimeout s = .next { s with rxState := .err, rxStatus := .timeout, rxLen := 0, out := none }) ∧
    (s.rxState = .idle ∨ s.rxState = .done ∨ s.rxState = .err → ∀ t : State, exec .rxTimeout s ≠ .next t)

/-- 40_frame_codec.md R109: a receive event has a step exactly while a read is pending. The name of the stop, `noPendingRead`, is the
model's (log 9). -/
def Obligations.ReceiveEventsOnlyWhilePending : Prop :=
  ∀ (s : State) (e : RxEvent),
    (s.rxState = .hunt ∨ s.rxState = .pre2 ∨ s.rxState = .body → ∃ t, exec e.instr s = .next t) ∧
    (s.rxState = .idle ∨ s.rxState = .done ∨ s.rxState = .err → exec e.instr s = .fault .noPendingRead)

/-- 40_frame_codec.md R115: RX_READ in each of the receiver's states. -/
def Obligations.RxReadTakesResult : Prop :=
  ∀ s : State,
    (s.rxState = .hunt ∨ s.rxState = .pre2 ∨ s.rxState = .body →
      exec .rxRead s = .next { s with out := some (.raised .busy) }) ∧
    (s.rxState = .idle → exec .rxRead s = .next { s with out := some (.raised .empty) }) ∧
    (s.rxState = .done →
      exec .rxRead s =
        .next { s with rxLen := 0, rxState := .idle, out := some (.ok (.resp (s.rxBuf.take s.rxLen))) }) ∧
    (s.rxState = .err →
      exec .rxRead s = .next { s with rxStatus := .ok, rxState := .idle, out := some (.raised s.rxStatus) })

/-- 40_frame_codec.md R116: after RX_START, for every sequence of events the transport delivers, RX_READ returns `read_frame` of it,
and where `read_frame` has no result the receiver is still pending. -/
def Obligations.ReceiverIsReadFrame : Prop :=
  ∀ (s : State) (evs : List RxEvent), s.pending = false → s.rxBuf.length = s.params.nRx →
    ∃ t u : State, exec .rxStart s = .next t ∧ deliver evs t = .next u ∧
      (huntResult s.params.nRx evs = none → u.pending = true) ∧
      (∀ r, huntResult s.params.nRx evs = some r →
        u.pending = false ∧ ∃ v : State, exec .rxRead u = .next v ∧ v.out = some r ∧
          v.rxState = .idle ∧ v.rxLen = 0 ∧ v.rxStatus = .ok)

/-- 10_state.md R26: what `RX_BUF` holds at and above `RX_LEN` never shows. Two states that differ only there go on alike for any
number of steps, whatever is presented to them. -/
def Obligations.BufferBeyondLenUnobservable : Prop :=
  ∀ (k : Nat) (s t : State), s.sameObservable t →
    (∀ s', Host.Core.run Sys2Proof.core k s = .next s' →
      ∃ t', Host.Core.run Sys2Proof.core k t = .next t' ∧ State.sameObservable s' t' ∧ t'.out = s'.out) ∧
    (∀ f, Host.Core.run Sys2Proof.core k s = .fault f → Host.Core.run Sys2Proof.core k t = .fault f) ∧
    (∀ r, Host.Core.run Sys2Proof.core k s = .refused r → Host.Core.run Sys2Proof.core k t = .refused r)

/-- 40_frame_codec.md R113: the receiver never compares what it receives with the addresses: with any other parameters of the same
`N_RX` it does the same. -/
def Obligations.ReceiverIgnoresAddresses : Prop :=
  ∀ (s : State) (p : Params) (i : Instr), i ∈ [Instr.rxStart, .rxTimeout, .rxRead] ∨ (∃ b, i = .rxByte b) →
    p.nRx = s.params.nRx →
    (∀ t, exec i s = .next t → exec i { s with params := p } = .next { t with params := p }) ∧
    (∀ f, exec i s = .fault f → exec i { s with params := p } = .fault f)

/-- 40_frame_codec.md R108 and 30_encoding.md R72: the first 0xFD after the doubled preamble ends the frame. Noise without 0xFE before
the preamble is skipped, a response of up to `N_RX` bytes without 0xFD is returned whole, 0xFE among them, and nothing after the
terminator is delivered. -/
def Obligations.FirstTerminatorEndsFrame : Prop :=
  ∀ (s : State) (noise body : List Byte) (later : List RxEvent),
    s.pending = false → s.rxBuf.length = s.params.nRx →
    0xFE ∉ noise → 0xFD ∉ body → body.length ≤ s.params.nRx →
    ∃ t u v : State, exec .rxStart s = .next t ∧
      deliver ((noise ++ [0xFE, 0xFE] ++ body ++ [0xFD]).map .byte ++ later) t = .next u ∧
      u.rxState = .done ∧ u.rxLen = body.length ∧
      exec .rxRead u = .next v ∧ v.out = some (.ok (.resp body)) ∧ v.rxState = .idle

/-- 40_frame_codec.md R112: a body of more than `N_RX` bytes fails with OVERFLOW and returns no bytes. -/
def Obligations.OverlongBodyOverflows : Prop :=
  ∀ (s : State) (body : List Byte) (later : List RxEvent), s.pending = false →
    0xFD ∉ body → s.params.nRx < body.length →
    ∃ t u v : State, exec .rxStart s = .next t ∧
      deliver (([0xFE, 0xFE] ++ body).map .byte ++ later) t = .next u ∧
      u.rxState = .err ∧ u.rxLen = 0 ∧ u.rxStatus = .overflow ∧
      exec .rxRead u = .next v ∧ v.out = some (.raised .overflow) ∧ v.rxState = .idle ∧ v.rxStatus = .ok

/-- 70_reset_and_hazards.md R267: bytes other than 0xFE, however many, leave the receiver hunting. -/
def Obligations.HuntMayNotEnd : Prop :=
  ∀ (s : State) (b : Byte) (bs : List Byte), s.rxState = .hunt → 0xFE ∉ b :: bs →
    runAll (rxFeed (b :: bs)) s = .next { s with out := none }

/-- 40_frame_codec.md R117: an RX_READ whose status is not OK returns no bytes, and in a state that meets the invariants its status is
OK exactly when the receiver is DONE. -/
def Obligations.FailedReadReturnsNoBytes : Prop :=
  ∀ s : State, s.Inv → ∃ (t : State) (r : Record), exec .rxRead s = .next t ∧ t.out = some r ∧
    (r.status ≠ .ok → r.results = none) ∧ (r.status = .ok ↔ s.rxState = .done)

/-- 60_exceptions.md R237: no operation but RX_READ and RX_START takes the receiver out of ERR. -/
def Obligations.ErrLeftOnlyByReadOrStart : Prop :=
  ∀ (s t : State) (i : Instr), s.rxState = .err → exec i s = .next t → t.rxState ≠ .err →
    (i = .rxRead ∧ t.rxState = .idle ∧ t.out = some (.raised s.rxStatus)) ∨ (i = .rxStart ∧ t.rxState = .hunt)

/-- 10_state.md R28: which operations write each receiver register. -/
def Obligations.ReceiverRegisterWriters : Prop :=
  ∀ (s t : State) (i : Instr), exec i s = .next t →
    (t.rxBuf ≠ s.rxBuf → ∃ b, i = .rxByte b ∧ b ≠ 0xFD ∧ s.rxState = .body ∧ s.rxLen < s.params.nRx ∧
      t.rxBuf = s.rxBuf.set s.rxLen b) ∧
    (t.rxLen ≠ s.rxLen → i = .rxStart ∨ i = .rxTimeout ∨ i = .rxRead ∨ ((∃ b, i = .rxByte b) ∧ s.rxState = .body)) ∧
    (t.rxStatus ≠ s.rxStatus → i = .rxStart ∨ i = .rxTimeout ∨ i = .rxRead ∨
      ((∃ b, i = .rxByte b) ∧ (s.rxState = .pre2 ∨ s.rxState = .body))) ∧
    (t.rxState ≠ s.rxState → i = .rxStart ∨ i = .rxTimeout ∨ i = .rxRead ∨ ∃ b, i = .rxByte b)

/-! ### The byte swapper -/

/-- 42_byte_swap.md R160: BSWAP of 1 to 5 bytes puts byte `N-1-i` at index `i`; any other length is LEN. -/
def Obligations.BswapReversesBytes : Prop :=
  ∀ (s : State) (d : List Byte),
    (1 ≤ d.length ∧ d.length ≤ 5 → ∃ r : List Byte, exec (.bswap d) s = .next { s with out := some (.ok (.swapped r)) } ∧
      r.length = d.length ∧ ∀ i, i < d.length → r[i]? = d[d.length - 1 - i]?) ∧
    (d.length = 0 ∨ 5 < d.length → exec (.bswap d) s = .next { s with out := some (.raised .len) })

/-- 42_byte_swap.md R161: BSWAP of its own result is the operand. -/
def Obligations.BswapIsInvolution : Prop :=
  ∀ (s : State) (d : List Byte), 1 ≤ d.length → d.length ≤ 5 →
    ∃ r : List Byte, exec (.bswap d) s = .next { s with out := some (.ok (.swapped r)) } ∧
      exec (.bswap r) s = .next { s with out := some (.ok (.swapped d)) }

/-! ### The field codec -/

/-- 43_field_codec.md R180: FREQ_ENC below 10^10 is the five bytes, least significant pair first; above, RANGE. -/
def Obligations.FreqEncPacksTenDigits : Prop :=
  ∀ (s : State) (hz : BitVec 34),
    (hz.toNat < 10 ^ 10 → exec (.freqEnc hz) s = .next { s with out := some (.ok (.freqField
      [bcdByte (hz.toNat % 100), bcdByte (hz.toNat / 100 % 100), bcdByte (hz.toNat / 100 ^ 2 % 100),
       bcdByte (hz.toNat / 100 ^ 3 % 100), bcdByte (hz.toNat / 100 ^ 4 % 100)])) }) ∧
    (10 ^ 10 ≤ hz.toNat → exec (.freqEnc hz) s = .next { s with out := some (.raised .range) })

/-- 43_field_codec.md R181: FREQ_DEC reads the last five bytes, whatever comes before them. -/
def Obligations.FreqDecReadsTail : Prop :=
  ∀ s : State,
    (∀ resp : List Byte, resp.length < 5 → exec (.freqDec resp) s = .next { s with out := some (.raised .short) }) ∧
    ∀ (p : List Byte) (t0 t1 t2 t3 t4 : Byte),
      ((∀ b ∈ [t0, t1, t2, t3, t4], isBcd b = true) → ∃ hz : BitVec 34,
        hz.toNat = bcdValue t0 + bcdValue t1 * 100 + bcdValue t2 * 100 ^ 2 + bcdValue t3 * 100 ^ 3 + bcdValue t4 * 100 ^ 4 ∧
        exec (.freqDec (p ++ [t0, t1, t2, t3, t4])) s = .next { s with out := some (.ok (.hz hz)) }) ∧
      ((∃ b ∈ [t0, t1, t2, t3, t4], isBcd b = false) →
        exec (.freqDec (p ++ [t0, t1, t2, t3, t4])) s = .next { s with out := some (.raised .badBcd) })

/-- 43_field_codec.md R182: FREQ_DEC after FREQ_ENC, behind any prefix, is the value; FREQ_ENC after FREQ_DEC is the five bytes. -/
def Obligations.FreqRoundTrip : Prop :=
  (∀ (s : State) (hz : BitVec 34), hz.toNat < 10 ^ 10 → ∃ f : List Byte,
    exec (.freqEnc hz) s = .next { s with out := some (.ok (.freqField f)) } ∧
    ∀ p : List Byte, exec (.freqDec (p ++ f)) s = .next { s with out := some (.ok (.hz hz)) }) ∧
  (∀ (s : State) (f : List Byte), f.length = 5 → (∀ b ∈ f, isBcd b = true) → ∃ hz : BitVec 34,
    exec (.freqDec f) s = .next { s with out := some (.ok (.hz hz)) } ∧
    exec (.freqEnc hz) s = .next { s with out := some (.ok (.freqField f)) })

/-- 43_field_codec.md R213: the reversed frequency field spells the ten decimal digits, most significant first, and FREQ_DEC is the
decimal number read from the nibbles of the swapped tail. -/
def Obligations.FreqReadsThroughSwapper : Prop :=
  (∀ (s : State) (hz : BitVec 34), hz.toNat < 10 ^ 10 → ∃ f r : List Byte,
    exec (.freqEnc hz) s = .next { s with out := some (.ok (.freqField f)) } ∧
    exec (.bswap f) s = .next { s with out := some (.ok (.swapped r)) } ∧
    nibbles r = (List.range 10).map fun j => hz.toNat / 10 ^ (9 - j) % 10) ∧
  (∀ (s : State) (p t : List Byte), t.length = 5 → (∀ b ∈ t, isBcd b = true) → ∃ (r : List Byte) (hz : BitVec 34),
    exec (.bswap t) s = .next { s with out := some (.ok (.swapped r)) } ∧
    exec (.freqDec (p ++ t)) s = .next { s with out := some (.ok (.hz hz)) } ∧
    hz.toNat = decimalNumber (nibbles r))

/-- 43_field_codec.md R190: TIME_ENC, with RANGE before DIGIT and the single-digit gap of `TIME_PAD = false`. -/
def Obligations.TimeEncPacksHourMinute : Prop :=
  ∀ (s : State) (hour minute : BitVec 8),
    (23 < hour.toNat ∨ 59 < minute.toNat →
      exec (.timeEnc hour minute) s = .next { s with out := some (.raised .range) }) ∧
    (hour.toNat ≤ 23 → minute.toNat ≤ 59 →
      (s.params.timePad = false → hour.toNat ≤ 9 ∨ minute.toNat ≤ 9 →
        exec (.timeEnc hour minute) s = .next { s with out := some (.raised .digit) }) ∧
      (s.params.timePad = true ∨ 9 < hour.toNat ∧ 9 < minute.toNat →
        exec (.timeEnc hour minute) s =
          .next { s with out := some (.ok (.timeField [bcdByte hour.toNat, bcdByte minute.toNat])) }))

/-- 43_field_codec.md R191: TIME_DEC reads the last two bytes, with no range check. -/
def Obligations.TimeDecReadsTail : Prop :=
  ∀ s : State,
    (∀ resp : List Byte, resp.length < 2 → exec (.timeDec resp) s = .next { s with out := some (.raised .short) }) ∧
    ∀ (p : List Byte) (h m : Byte),
      (isBcd h = true → isBcd m = true → ∃ hour minute : BitVec 8,
        hour.toNat = bcdValue h ∧ minute.toNat = bcdValue m ∧
        exec (.timeDec (p ++ [h, m])) s = .next { s with out := some (.ok (.time hour minute)) }) ∧
      (isBcd h = false ∨ isBcd m = false →
        exec (.timeDec (p ++ [h, m])) s = .next { s with out := some (.raised .badBcd) })

/-- 43_field_codec.md R192: TIME_DEC after an accepted TIME_ENC, behind any prefix, is the time; which times are accepted. -/
def Obligations.TimeRoundTrip : Prop :=
  ∀ (s : State) (hour minute : BitVec 8), hour.toNat ≤ 23 → minute.toNat ≤ 59 →
    ((∃ f : List Byte, exec (.timeEnc hour minute) s = .next { s with out := some (.ok (.timeField f)) }) ↔
      s.params.timePad = true ∨ 10 ≤ hour.toNat ∧ 10 ≤ minute.toNat) ∧
    ∀ f : List Byte, exec (.timeEnc hour minute) s = .next { s with out := some (.ok (.timeField f)) } →
      ∀ p : List Byte, exec (.timeDec (p ++ f)) s = .next { s with out := some (.ok (.time hour minute)) }

/-- 43_field_codec.md R200: DATE_ENC, with RANGE outside year 1000..9999, month 1..12 or day 1..31. -/
def Obligations.DateEncPacksYearMonthDay : Prop :=
  ∀ (s : State) (year : BitVec 14) (month day : BitVec 8),
    (year.toNat < 1000 ∨ 9999 < year.toNat ∨ month.toNat < 1 ∨ 12 < month.toNat ∨ day.toNat < 1 ∨ 31 < day.toNat →
      exec (.dateEnc year month day) s = .next { s with out := some (.raised .range) }) ∧
    (1000 ≤ year.toNat → year.toNat ≤ 9999 → 1 ≤ month.toNat → month.toNat ≤ 12 → 1 ≤ day.toNat → day.toNat ≤ 31 →
      exec (.dateEnc year month day) s = .next { s with out := some (.ok (.dateField
        [bcdByte (year.toNat / 100), bcdByte (year.toNat % 100), bcdByte month.toNat, bcdByte day.toNat])) })

/-- 43_field_codec.md R201: DATE_DEC reads the last four bytes, with no range check. -/
def Obligations.DateDecReadsTail : Prop :=
  ∀ s : State,
    (∀ resp : List Byte, resp.length < 4 → exec (.dateDec resp) s = .next { s with out := some (.raised .short) }) ∧
    ∀ (p : List Byte) (y1 y0 mo d : Byte),
      ((∀ b ∈ [y1, y0, mo, d], isBcd b = true) → ∃ (year : BitVec 14) (month day : BitVec 8),
        year.toNat = 100 * bcdValue y1 + bcdValue y0 ∧ month.toNat = bcdValue mo ∧ day.toNat = bcdValue d ∧
        exec (.dateDec (p ++ [y1, y0, mo, d])) s = .next { s with out := some (.ok (.date year month day)) }) ∧
      ((∃ b ∈ [y1, y0, mo, d], isBcd b = false) →
        exec (.dateDec (p ++ [y1, y0, mo, d])) s = .next { s with out := some (.raised .badBcd) })

/-- 43_field_codec.md R202: DATE_DEC after DATE_ENC, behind any prefix, is the date. -/
def Obligations.DateRoundTrip : Prop :=
  ∀ (s : State) (year : BitVec 14) (month day : BitVec 8),
    1000 ≤ year.toNat → year.toNat ≤ 9999 → 1 ≤ month.toNat → month.toNat ≤ 12 → 1 ≤ day.toNat → day.toNat ≤ 31 →
    ∃ f : List Byte, exec (.dateEnc year month day) s = .next { s with out := some (.ok (.dateField f)) } ∧
      ∀ p : List Byte, exec (.dateDec (p ++ f)) s = .next { s with out := some (.ok (.date year month day)) }

/-- 30_encoding.md R79: a BCD byte is at most 0x99, so neither delimiter, and every byte of a field that the encoders emit is one. -/
def Obligations.EncodersEmitNoDelimiter : Prop :=
  (∀ b : Byte, isBcd b = true → b.toNat ≤ 0x99 ∧ b ≠ 0xFD ∧ b ≠ 0xFE) ∧
  ∀ (s t : State) (i : Instr) (f : List Byte), exec i s = .next t → fieldOf t.out = some f →
    ∀ b ∈ f, isBcd b = true ∧ b ≠ 0xFD ∧ b ≠ 0xFE

/-! ### Pseudo-instructions and programs -/

/-- 30_encoding.md R85: each `SEND_` form answers FRAME_ENC's frame of the field when the encoder's status is OK, and otherwise the
encoder's status with FRAME_ENC not issued. -/
def Obligations.SendFormsFrameTheField : Prop :=
  ∀ (s : State) (i : Instr) (cmd : Byte) (hasSub : Bool) (sub : Byte),
    i.opcode = .freqEnc ∨ i.opcode = .timeEnc ∨ i.opcode = .dateEnc →
    ∃ t : State, exec i s = .next t ∧
      ((∃ st, t.out = some (.raised st)) → sendField i cmd hasSub sub s = .next t) ∧
      ((∀ st, t.out ≠ some (.raised st)) → ∃ f, fieldOf t.out = some f ∧
        sendField i cmd hasSub sub s = exec (.frameEnc cmd hasSub sub f) s)

/-- 30_encoding.md R85, 60_exceptions.md R247(b): a feed that outlives the frame is stuck. The name of the stop is the model's (log 9). -/
def Obligations.FeedOutlivingFrameIsStuck : Prop :=
  ∀ (s : State) (pre : List Byte) (b : Byte) (bs : List Byte) (t : State),
    runAll (rxFeed pre) s = .next t → t.pending = false →
    runAll (rxFeed (pre ++ b :: bs)) s = .fault .noPendingRead

/-- 43_field_codec.md R212 with R182 and 40_frame_codec.md R101: a frequency sent with SEND_FREQ in an envelope free of 0xFD, and read
back from the line, decodes to itself. -/
def Obligations.SentFrequencyReadBack : Prop :=
  ∀ (s : State) (cmd : Byte) (hasSub : Bool) (sub : Byte) (hz : BitVec 34),
    s.pending = false → s.rxBuf.length = s.params.nRx → s.params.legal → hz.toNat < 10 ^ 10 →
    0xFD ∉ [s.params.radioAddr, s.params.ctrlAddr, cmd] ++ (if hasSub then [sub] else []) → 8 + hasSub.toNat ≤ s.params.nRx →
    ∃ (t u v : State) (f r : List Byte), sendFreq cmd hasSub sub hz s = .next t ∧ t.out = some (.ok (.frame f)) ∧
      runAll (readFrame f) t = .next u ∧ u.out = some (.ok (.resp r)) ∧
      exec (.freqDec r) u = .next v ∧ v.out = some (.ok (.hz hz))

/-- 70_reset_and_hazards.md R268: a read request without sub-command or payload that comes back as an echo is the response
`[RADIO_ADDR, CTRL_ADDR, CMD]`; FREQ_DEC and DATE_DEC of it are SHORT, and with `CTRL_ADDR = 0xE0` TIME_DEC of it is BADBCD. -/
def Obligations.EchoedReadRequestIsNoField : Prop :=
  ∀ (s : State) (cmd sub : Byte), s.pending = false → s.Inv → 0xFD ∉ [s.params.radioAddr, s.params.ctrlAddr, cmd] →
    ∃ (t u : State) (f r : List Byte), exec (.frameEnc cmd false sub []) s = .next t ∧ t.out = some (.ok (.frame f)) ∧
      runAll (readFrame f) t = .next u ∧ u.out = some (.ok (.resp r)) ∧
      r = [s.params.radioAddr, s.params.ctrlAddr, cmd] ∧
      exec (.freqDec r) u = .next { u with out := some (.raised .short) } ∧
      exec (.dateDec r) u = .next { u with out := some (.raised .short) } ∧
      (s.params.ctrlAddr = 0xE0 → exec (.timeDec r) u = .next { u with out := some (.raised .badBcd) })

/-! ### Encoding -/

/-- The model's request form (log 4) of 30_encoding.md R80 and R81: decoding what the encoder writes for a well-formed operation gives
it back, with every operand. -/
def Obligations.DecodeEncodeRoundTrip : Prop :=
  ∀ i : Instr, i.wf = true → decode (encode i) = .ok i

/-- The model's request form (log 4) of 30_encoding.md R80 and R81: what decodes is well-formed, and only its own encoding decodes to it. -/
def Obligations.EncodeDecodeRoundTrip : Prop :=
  ∀ (r : Request) (i : Instr), decode r = .ok i → i.wf = true ∧ encode i = r

/-- 30_encoding.md R80: the selector of each of the 14 rows (every operand port 0, by `decodeTableWord`, log 21), and three requests
with operands from the programs of 95_test_vectors.md Part 3. -/
def Obligations.SelectorsDecodeToTheirRows : Prop :=
  [0x01, 0x02, 0x03, 0x04, 0x05, 0x10, 0x11, 0x20, 0x30, 0x31, 0x32, 0x33, 0x34, 0x35].map (decodeTableWord 8) =
    [some (.frameEnc 0 false 0 []), some .rxStart, some (.rxByte 0), some .rxTimeout, some .rxRead, some (.bcdEnc 0),
     some (.bcdDec 0), some (.bswap []), some (.freqEnc 0), some (.freqDec []), some (.timeEnc 0 0), some (.timeDec []),
     some (.dateEnc 0 0 0), some (.dateDec [])] ∧
  decode [0x01, 0x40, 1, 0x01, 4, 0x20, 0x24, 0x03, 0x07] = .ok (.frameEnc 0x40 true 0x01 [0x20, 0x24, 0x03, 0x07]) ∧
  decode [0x34, 0x07E8, 0x03, 0x07] = .ok (.dateEnc 2024 3 7) ∧
  decode [0x20, 5, 0x00, 0x07, 0x01, 0x14, 0x00] = .ok (.bswap [0x00, 0x07, 0x01, 0x14, 0x00])

/-- 30_encoding.md R83, over the model's queue (log 2): a reserved selector returns ILLOP and changes no register, whatever the operand
ports hold (log 17). -/
def Obligations.ReservedSelectorsReturnIllop : Prop :=
  ∀ (s : State) (op : Nat) (ports : List Nat) (rest : List Input),
    op = 0x00 ∨ (0x06 ≤ op ∧ op ≤ 0x0F) ∨ (0x12 ≤ op ∧ op ≤ 0x1F) ∨ (0x21 ≤ op ∧ op ≤ 0x2F) ∨ (0x36 ≤ op ∧ op ≤ 0xFF) →
    s.inputs = .request (op :: ports) :: rest →
    step s = .next { s with inputs := rest, out := some (.raised .illop) }

/-! ### The whole machine -/

/-- A step takes the first input: when it is a request that decodes to an operation, the step is that operation's meaning on the state
with the input taken (the model's queue, log 2). -/
def Obligations.StepRunsDecodedInstruction : Prop :=
  ∀ (s : State) (r : Request) (rest : List Input) (i : Instr),
    s.inputs = .request r :: rest → decode r = .ok i → i.wf = true → step s = exec i { s with inputs := rest }

/-- 60_exceptions.md R246: between operations the block keeps its state unchanged. That a step with nothing presented exists is the
model's choice (log 3). -/
def Obligations.IdleStepKeepsState : Prop := ∀ s : State, s.inputs = [] → step s = .next s

/-- 70_reset_and_hazards.md R260 and R262: a reset between any two steps (an entry of the model's queue, log 12) sets the three
registers, keeps the parameters, cancels a pending read and discards a held result; afterwards RX_READ is EMPTY, RX_START starts a
receive and a receive event has no step (its name is the model's, log 9). -/
def Obligations.ResetClearsReceiver : Prop :=
  ∀ (s : State) (rest : List Input), s.inputs = .reset :: rest →
    ∃ t : State, step s = .next t ∧ t.rxState = .idle ∧ t.rxLen = 0 ∧ t.rxStatus = .ok ∧
      t.rxBuf.length = s.params.nRx ∧ t.params = s.params ∧ t.inputs = rest ∧
      (∀ e : RxEvent, exec e.instr t = .fault .noPendingRead) ∧
      exec .rxRead t = .next { t with out := some (.raised .empty) } ∧
      exec .rxStart t = .next { t with rxState := .hunt, out := some (.ok .none) }

/-- 70_reset_and_hazards.md R261, with the reset an entry of the model's queue (log 12): a reset changes no parameter, and each pure operation gives the same record before and after it. -/
def Obligations.ResetLeavesPureUnits : Prop :=
  ∀ (s t : State) (rest : List Input), s.inputs = .reset :: rest → step s = .next t →
    t.params = s.params ∧
    ∀ i : Instr, isPure i = true → ∃ r : Record,
      exec i s = .next { s with out := some r } ∧ exec i t = .next { t with out := some r }

/-- 10_state.md R32: the three registers' values right after reset, and `RX_BUF` holds no observable value: any other contents of its
`N_RX` bytes make the same observable state. -/
def Obligations.ResetStateValues : Prop :=
  State.reset.rxState = .idle ∧ State.reset.rxLen = 0 ∧ State.reset.rxStatus = .ok ∧
  RxState.code .idle = 0 ∧ Status.code .ok = 0x0 ∧
  ∀ buf : List Byte, buf.length = State.reset.params.nRx → State.reset.sameObservable { State.reset with rxBuf := buf }

/-- 10_state.md R30: reset establishes the invariants, whatever legal parameters the block has. -/
def Obligations.ResetMeetsInvariants : Prop := State.reset.Inv

/-- 10_state.md R30: every step keeps the invariants, from every state that meets them. -/
def Obligations.StepKeepsInvariants : Prop := ∀ s t : State, s.Inv → step s = .next t → t.Inv

/-- 10_state.md R30: every state reachable from reset, whatever the host and the transport present (the queue `ins`, log 2), satisfies
(a) to (e). -/
def Obligations.ReachableStatesMeetInvariants : Prop :=
  ∀ (ins : List Input) (k : Nat) (t : State),
    Host.Core.run Sys2Proof.core k ({ State.reset with inputs := ins } : State) = .next t →
    t.rxLen ≤ t.params.nRx ∧
    (t.rxState = .idle ∨ t.rxState = .hunt ∨ t.rxState = .pre2 ∨ t.rxState = .err → t.rxLen = 0) ∧
    (t.rxState ≠ .err → t.rxStatus = .ok) ∧
    (t.rxState = .err → t.rxStatus = .timeout ∨ t.rxStatus = .malformed ∨ t.rxStatus = .overflow) ∧
    (t.rxState = .body ∨ t.rxState = .done → ∀ b ∈ t.rxBuf.take t.rxLen, b ≠ 0xFD)

/-- 00_scope.md R5: no parameter can change while the block runs. -/
def Obligations.ParametersNeverChange : Prop :=
  ∀ (k : Nat) (s t : State), Host.Core.run Sys2Proof.core k s = .next t → State.params t = s.params

/-- 20_memory.md R59(c): a pure operation changes nothing but the result ports, and its record depends on its operands and the
parameters alone. -/
def Obligations.PureOperationsRepeatable : Prop :=
  ∀ i : Instr, isPure i = true → ∀ s t : State, t.params = s.params → ∃ r : Record,
    exec i s = .next { s with out := some r } ∧ exec i t = .next { t with out := some r } ∧
    exec i { s with out := some r } = .next { s with out := some r }

/-- 30_encoding.md R82: every operation the host issues completes with a record, whose results are present exactly when its status is
OK; a transport event leaves the result ports empty (log 6). -/
def Obligations.HostStepsReturnRecords : Prop :=
  ∀ (s : State) (i : Instr),
    (i.opcode.issuedBy = .host → ∃ (t : State) (r : Record), exec i s = .next t ∧ t.out = some r ∧
      (s.Inv → (r.status = .ok ↔ r.results.isSome = true))) ∧
    (i.opcode.issuedBy = .transport → ∀ t : State, exec i s = .next t → t.out = none)

/-- 60_exceptions.md R230: the code of each status, and for each status the operations that can return it and the receiver state it
comes from. -/
def Obligations.StatusesComeFromTheirOperations : Prop :=
  [Status.ok, .timeout, .malformed, .overflow, .range, .digit, .badBcd, .short, .len, .busy, .empty, .illop].map Status.code =
    [0x0, 0x1, 0x2, 0x3, 0x4, 0x5, 0x6, 0x7, 0x8, 0x9, 0xA, 0xB] ∧
  ∀ (s t : State) (i : Instr) (st : Status), s.Inv → exec i s = .next t → t.out = some (.raised st) →
    st ≠ .ok ∧ st ≠ .illop ∧
    (st = .timeout ∨ st = .malformed ∨ st = .overflow → i = .rxRead ∧ s.rxState = .err ∧ s.rxStatus = st) ∧
    (st = .range → i.opcode ∈ [Opcode.bcdEnc, .freqEnc, .timeEnc, .dateEnc]) ∧
    (st = .digit → i.opcode = .timeEnc ∧ s.params.timePad = false) ∧
    (st = .badBcd → i.opcode ∈ [Opcode.bcdDec, .freqDec, .timeDec, .dateDec]) ∧
    (st = .short → i.opcode ∈ [Opcode.freqDec, .timeDec, .dateDec]) ∧
    (st = .len → i.opcode ∈ [Opcode.frameEnc, .bswap]) ∧
    (st = .busy → (i = .rxStart ∨ i = .rxRead) ∧ s.pending = true) ∧
    (st = .empty → i = .rxRead ∧ s.rxState = .idle)

/-- 40_frame_codec.md R109, 60_exceptions.md R247, over the model's queue (log 2): a step has a next state exactly when what is presented
can be: a reset, a reserved selector, a host operation that its ports can carry (log 5), or a receive event while a read is pending. -/
def Obligations.StepAnswersExactlyWhenAdmitted : Prop :=
  ∀ (s : State) (x : Input) (rest : List Input), s.inputs = x :: rest →
    ((∃ t, step s = .next t) ↔ s.admitsInput x = true)

/-- The run of the machine over presented operations is the operations' meanings one after the other (the model's queue, log 2). -/
def Obligations.RunOfPresentedOperations : Prop :=
  ∀ (is : List Instr) (s : State), (∀ i ∈ is, i.wf = true) →
    Host.Core.run Sys2Proof.core is.length ({ s with inputs := presenting is } : State) = runAll is { s with inputs := [] }
end

