-- ==== Sys2Proof/Laws/Decode.lean ====
section
/-! SUPPORT. What the readers of the decoder answer on the values the encoder writes, and what a value they accept is. -/

namespace Sys2Proof

/-- Every row's selector selects that row (30_encoding.md R80). -/
@[simp] theorem Opcode.ofCode_code (o : Opcode) : Opcode.ofCode o.code = some o := by
  cases o <;> decide

/-- A selector selects at most the row of that value. -/
theorem Opcode.code_of_ofCode {v : Nat} {o : Opcode} (h : Opcode.ofCode v = some o) : o.code = v := by
  have := List.find?_some h
  simpa using this

/-- Every selector fits the 8-bit `OP`. -/
theorem Opcode.code_lt (o : Opcode) : o.code < 2 ^ 8 := by
  cases o <;> decide

/-- A port reads back the value written on it. -/
@[simp] theorem readPort_toNat (p : Port) {w : Nat} (v : BitVec w) : readPort p w v.toNat = .ok v := by
  simp [readPort, v.isLt]

/-- A port accepts just the values of its width. -/
theorem readPort_ok {p : Port} {w v : Nat} {x : BitVec w} : readPort p w v = .ok x ↔ x.toNat = v := by
  unfold readPort
  split
  · rename_i h
    constructor
    · rintro ⟨⟩; simp [Nat.mod_eq_of_lt h]
    · rintro rfl; simp
  · rename_i h
    constructor
    · rintro ⟨⟩
    · rintro rfl; exact absurd x.isLt h

/-- A one-bit port reads back the value written on it. -/
@[simp] theorem readBit_toNat (p : Port) (b : Bool) : readBit p b.toNat = .ok b := by
  cases b <;> rfl

/-- A one-bit port accepts just 0 and 1. -/
theorem readBit_ok {p : Port} {v : Nat} {b : Bool} : readBit p v = .ok b ↔ b.toNat = v := by
  unfold readBit
  split
  · subst v; cases b <;> simp
  · split
    · subst v; cases b <;> simp
    · cases b <;> simp <;> omega

/-- A byte sequence reads back the values written for it. -/
@[simp] theorem readBytes_writeBytes (p : Port) (bs : List Byte) : readBytes p (writeBytes bs) = .ok bs := by
  induction bs with
  | nil => rfl
  | cons b bs ih =>
    have : writeBytes (b :: bs) = b.toNat :: writeBytes bs := rfl
    rw [this]
    simp only [readBytes, readPort_toNat, ih]
    rfl

/-- A byte sequence is accepted just from the values written for it. -/
theorem readBytes_ok {p : Port} {vs : List Nat} {bs : List Byte} (h : readBytes p vs = .ok bs) : writeBytes bs = vs := by
  induction vs generalizing bs with
  | nil => cases h; rfl
  | cons v vs ih =>
    simp only [readBytes] at h
    cases hb : readPort p 8 v with
    | error e => simp [hb, bind, Except.bind] at h
    | ok b =>
      cases hs : readBytes p vs with
      | error e => simp [hb, hs, bind, Except.bind] at h
      | ok cs =>
        simp only [hb, hs, bind, Except.bind, pure, Except.pure, Except.ok.injEq] at h
        subst h
        simpa [writeBytes] using ⟨readPort_ok.mp hb, by simpa [writeBytes] using ih hs⟩

@[simp] theorem writeBytes_length (bs : List Byte) : (writeBytes bs).length = bs.length := by
  simp [writeBytes]

/-- A counted byte sequence reads back the values written for it. -/
@[simp] theorem readCounted_writeBytes (op : Opcode) (p : Port) (bs : List Byte) :
    readCounted op p bs.length (writeBytes bs) = .ok bs := by
  simp [readCounted]

/-- A counted byte sequence is accepted just from the values written for it, with its length as count. -/
theorem readCounted_ok {op : Opcode} {p : Port} {n : Nat} {vs : List Nat} {bs : List Byte}
    (h : readCounted op p n vs = .ok bs) : writeBytes bs = vs ∧ bs.length = n := by
  unfold readCounted at h
  split at h
  · have := readBytes_ok h
    exact ⟨this, by rw [← writeBytes_length, this]; assumption⟩
  · cases h

end Sys2Proof
end

