-- ==== Sys2Proof/Laws/State.lean ====
section
/-! SUPPORT. One lemma per field per update of the state, each true by unfolding, so that no later proof unfolds a record update. -/

namespace Sys2Proof.Machine

@[simp] theorem State.memWrite_params (s : State) (addr : Nat) (b : Byte) : (s.memWrite addr b).params = s.params := rfl
@[simp] theorem State.memWrite_rxState (s : State) (addr : Nat) (b : Byte) : (s.memWrite addr b).rxState = s.rxState := rfl
@[simp] theorem State.memWrite_rxLen (s : State) (addr : Nat) (b : Byte) : (s.memWrite addr b).rxLen = s.rxLen := rfl
@[simp] theorem State.memWrite_rxStatus (s : State) (addr : Nat) (b : Byte) : (s.memWrite addr b).rxStatus = s.rxStatus := rfl
@[simp] theorem State.memWrite_rxBuf (s : State) (addr : Nat) (b : Byte) : (s.memWrite addr b).rxBuf = s.rxBuf.set addr b := rfl
@[simp] theorem State.memWrite_out (s : State) (addr : Nat) (b : Byte) : (s.memWrite addr b).out = s.out := rfl
@[simp] theorem State.memWrite_inputs (s : State) (addr : Nat) (b : Byte) : (s.memWrite addr b).inputs = s.inputs := rfl
@[simp] theorem State.memWrite_resets (s : State) (addr : Nat) (b : Byte) : (s.memWrite addr b).resets = s.resets := rfl

@[simp] theorem State.failReceive_params (s : State) (st : Status) : (s.failReceive st).params = s.params := rfl
@[simp] theorem State.failReceive_rxState (s : State) (st : Status) : (s.failReceive st).rxState = .err := rfl
@[simp] theorem State.failReceive_rxLen (s : State) (st : Status) : (s.failReceive st).rxLen = s.rxLen := rfl
@[simp] theorem State.failReceive_rxStatus (s : State) (st : Status) : (s.failReceive st).rxStatus = st := rfl
@[simp] theorem State.failReceive_rxBuf (s : State) (st : Status) : (s.failReceive st).rxBuf = s.rxBuf := rfl
@[simp] theorem State.failReceive_out (s : State) (st : Status) : (s.failReceive st).out = s.out := rfl
@[simp] theorem State.failReceive_inputs (s : State) (st : Status) : (s.failReceive st).inputs = s.inputs := rfl
@[simp] theorem State.failReceive_resets (s : State) (st : Status) : (s.failReceive st).resets = s.resets := rfl

@[simp] theorem State.applyReset_params (s : State) : (s.applyReset).params = s.params := rfl
@[simp] theorem State.applyReset_rxState (s : State) : (s.applyReset).rxState = .idle := rfl
@[simp] theorem State.applyReset_rxLen (s : State) : (s.applyReset).rxLen = 0 := rfl
@[simp] theorem State.applyReset_rxStatus (s : State) : (s.applyReset).rxStatus = .ok := rfl
@[simp] theorem State.applyReset_rxBuf (s : State) : (s.applyReset).rxBuf = freshBuffer s.params s.resets := rfl
@[simp] theorem State.applyReset_out (s : State) : (s.applyReset).out = none := rfl
@[simp] theorem State.applyReset_inputs (s : State) : (s.applyReset).inputs = s.inputs := rfl
@[simp] theorem State.applyReset_resets (s : State) : (s.applyReset).resets = s.resets + 1 := rfl

@[simp] theorem State.withFetchWord_params (s : State) (nbits w : Nat) : (s.withFetchWord nbits w).params = s.params := rfl
@[simp] theorem State.withFetchWord_rxState (s : State) (nbits w : Nat) : (s.withFetchWord nbits w).rxState = s.rxState := rfl
@[simp] theorem State.withFetchWord_rxLen (s : State) (nbits w : Nat) : (s.withFetchWord nbits w).rxLen = s.rxLen := rfl
@[simp] theorem State.withFetchWord_rxStatus (s : State) (nbits w : Nat) : (s.withFetchWord nbits w).rxStatus = s.rxStatus := rfl
@[simp] theorem State.withFetchWord_rxBuf (s : State) (nbits w : Nat) : (s.withFetchWord nbits w).rxBuf = s.rxBuf := rfl
@[simp] theorem State.withFetchWord_out (s : State) (nbits w : Nat) : (s.withFetchWord nbits w).out = s.out := rfl
@[simp] theorem State.withFetchWord_inputs (s : State) (nbits w : Nat) : (s.withFetchWord nbits w).inputs = .request (tableRequest nbits w) :: s.inputs := rfl
@[simp] theorem State.withFetchWord_resets (s : State) (nbits w : Nat) : (s.withFetchWord nbits w).resets = s.resets := rfl

@[simp] theorem State.reset_params : State.reset.params = Config.block := rfl
@[simp] theorem State.reset_rxState : State.reset.rxState = .idle := rfl
@[simp] theorem State.reset_rxLen : State.reset.rxLen = 0 := rfl
@[simp] theorem State.reset_rxStatus : State.reset.rxStatus = .ok := rfl
@[simp] theorem State.reset_rxBuf : State.reset.rxBuf = List.replicate Config.block.nRx 0 := rfl
@[simp] theorem State.reset_out : State.reset.out = none := rfl
@[simp] theorem State.reset_inputs : State.reset.inputs = [] := rfl
@[simp] theorem State.reset_resets : State.reset.resets = 0 := rfl

theorem State.give_eq (s : State) (r : Record) : s.give r = .next { s with out := some r } := rfl
theorem State.answer_eq (s : State) (r : Results) : s.answer r = .next { s with out := some (.ok r) } := rfl
theorem State.raise_eq (s : State) (st : Status) : s.raise st = .next { s with out := some (.raised st) } := rfl
theorem State.silent_eq (s : State) : s.silent = .next { s with out := none } := rfl

theorem State.response_eq (s : State) : s.response = s.rxBuf.take s.rxLen := by
  simp [State.response, State.memRead]

/-- The state is pending exactly in HUNT, PRE2 and BODY (10_state.md R29). -/
theorem State.pending_iff (s : State) :
    s.pending = true ↔ s.rxState = .hunt ∨ s.rxState = .pre2 ∨ s.rxState = .body := by
  unfold State.pending; cases s.rxState <;> simp [RxState.pending]

/-- The state is not pending exactly in IDLE, DONE and ERR (10_state.md R29). -/
theorem State.not_pending_iff (s : State) :
    s.pending = false ↔ s.rxState = .idle ∨ s.rxState = .done ∨ s.rxState = .err := by
  unfold State.pending; cases s.rxState <;> simp [RxState.pending]

/-- The buffer that a reset action leaves is `N_RX` bytes deep (10_state.md R26). -/
@[simp] theorem freshBuffer_length (p : Params) (k : Nat) : (freshBuffer p k).length = p.nRx := by
  simp [freshBuffer]

/-- The parameters that reset describes are legal whatever they are (00_scope.md R5). -/
theorem Config.block_legal : Config.block.legal := ⟨Nat.le_add_left 8 _, Nat.le_add_left 5 _⟩

end Sys2Proof.Machine
end

