-- ==== Sys2Proof/Laws/Ops.lean ====
section
/-! SUPPORT. For each shared operation and each meaning, once, everything it can do: the provers cite these instead of unfolding. -/

namespace Sys2Proof.Machine

/-- Everything `appendByte` can do (40_frame_codec.md R112). -/
theorem State.appendByte_cases (s : State) (b : Byte) :
    (s.rxLen < s.params.nRx ∧ s.appendByte b = { s with rxBuf := s.rxBuf.set s.rxLen b, rxLen := s.rxLen + 1 }) ∨
    (s.params.nRx ≤ s.rxLen ∧ s.appendByte b = { s with rxStatus := .overflow, rxLen := 0, rxState := .err }) := by
  by_cases h : s.rxLen < s.params.nRx
  · exact .inl ⟨h, by simp [State.appendByte, h, State.memWrite]⟩
  · exact .inr ⟨by omega, by simp [State.appendByte, h]⟩

/-- `appendByte` keeps the depth of `RX_BUF`. -/
@[simp] theorem State.appendByte_rxBuf_length (s : State) (b : Byte) : (s.appendByte b).rxBuf.length = s.rxBuf.length := by
  rcases s.appendByte_cases b with ⟨-, h⟩ | ⟨-, h⟩ <;> simp [h]

/-- Everything `decodeTail` can do (43_field_codec.md R210, R214). -/
theorem decodeTail_cases (k : Nat) (resp : List Byte) (s : State) (read : List Byte → Results) :
    (resp.length < k ∧ decodeTail k resp s read = .next { s with out := some (.raised .short) }) ∨
    (k ≤ resp.length ∧ (tailBytes k resp).all isBcd = true ∧
      decodeTail k resp s read = .next { s with out := some (.ok (read (tailBytes k resp))) }) ∨
    (k ≤ resp.length ∧ (tailBytes k resp).all isBcd = false ∧
      decodeTail k resp s read = .next { s with out := some (.raised .badBcd) }) := by
  by_cases h : resp.length < k
  · exact .inl ⟨h, by simp [decodeTail, h, State.raise, State.give]⟩
  · cases ha : (tailBytes k resp).all isBcd
    · exact .inr (.inr ⟨by omega, rfl, by simp [decodeTail, h, ha, State.raise, State.give]⟩)
    · exact .inr (.inl ⟨by omega, rfl, by simp [decodeTail, h, ha, State.answer, State.give]⟩)

/-- The last `k` of a sequence that ends in `k` bytes are those (00_scope.md R9). -/
@[simp] theorem tailBytes_append (p t : List Byte) : tailBytes t.length (p ++ t) = t := by
  simp [tailBytes]

/-- Everything RX_START can do (40_frame_codec.md R104). -/
theorem execRxStart_cases (s : State) :
    (s.pending = true ∧ execRxStart s = .next { s with out := some (.raised .busy) }) ∨
    (s.pending = false ∧
      execRxStart s = .next { s with rxLen := 0, rxStatus := .ok, rxState := .hunt, out := some (.ok .none) }) := by
  cases h : s.pending
  · exact .inr ⟨rfl, by simp [execRxStart, h, State.answer, State.give]⟩
  · exact .inl ⟨rfl, by simp [execRxStart, h, State.raise, State.give]⟩

/-- Everything RX_BYTE can do (40_frame_codec.md R110). -/
theorem execRxByte_cases (b : Byte) (s : State) :
    (s.pending = false ∧ execRxByte b s = .fault .noPendingRead) ∨
    (s.rxState = .hunt ∧ b = 0xFE ∧ execRxByte b s = .next { s with rxState := .pre2, out := none }) ∨
    (s.rxState = .hunt ∧ b ≠ 0xFE ∧ execRxByte b s = .next { s with out := none }) ∨
    (s.rxState = .pre2 ∧ b = 0xFE ∧ execRxByte b s = .next { s with rxState := .body, out := none }) ∨
    (s.rxState = .pre2 ∧ b ≠ 0xFE ∧
      execRxByte b s = .next { s with rxStatus := .malformed, rxState := .err, out := none }) ∨
    (s.rxState = .body ∧ b = 0xFD ∧ execRxByte b s = .next { s with rxState := .done, out := none }) ∨
    (s.rxState = .body ∧ b ≠ 0xFD ∧ execRxByte b s = .next { s.appendByte b with out := none }) := by
  obtain ⟨p, st, n, e, buf, o, ins, k⟩ := s
  cases st
  · exact .inl ⟨rfl, rfl⟩
  · by_cases hb : b = 0xFE
    · exact .inr (.inl ⟨rfl, hb, if_pos hb⟩)
    · exact .inr (.inr (.inl ⟨rfl, hb, if_neg hb⟩))
  · by_cases hb : b = 0xFE
    · exact .inr (.inr (.inr (.inl ⟨rfl, hb, if_pos hb⟩)))
    · exact .inr (.inr (.inr (.inr (.inl ⟨rfl, hb, if_neg hb⟩))))
  · by_cases hb : b = 0xFD
    · exact .inr (.inr (.inr (.inr (.inr (.inl ⟨rfl, hb, if_pos hb⟩)))))
    · exact .inr (.inr (.inr (.inr (.inr (.inr ⟨rfl, hb, if_neg hb⟩)))))
  · exact .inl ⟨rfl, rfl⟩
  · exact .inl ⟨rfl, rfl⟩

/-- Everything RX_TIMEOUT can do (40_frame_codec.md R111). -/
theorem execRxTimeout_cases (s : State) :
    (s.pending = false ∧ execRxTimeout s = .fault .noPendingRead) ∨
    (s.pending = true ∧
      execRxTimeout s = .next { s with rxStatus := .timeout, rxLen := 0, rxState := .err, out := none }) := by
  cases h : s.pending
  · exact .inl ⟨rfl, by simp [execRxTimeout, h]⟩
  · exact .inr ⟨rfl, by simp [execRxTimeout, h, State.silent, State.failReceive]⟩

/-- Everything RX_READ can do (40_frame_codec.md R115). -/
theorem execRxRead_cases (s : State) :
    (s.pending = true ∧ execRxRead s = .next { s with out := some (.raised .busy) }) ∨
    (s.rxState = .idle ∧ execRxRead s = .next { s with out := some (.raised .empty) }) ∨
    (s.rxState = .done ∧ execRxRead s =
      .next { s with rxLen := 0, rxState := .idle, out := some (.ok (.resp (s.rxBuf.take s.rxLen))) }) ∨
    (s.rxState = .err ∧ execRxRead s =
      .next { s with rxStatus := .ok, rxState := .idle, out := some (.raised s.rxStatus) }) := by
  rw [← State.response_eq]
  obtain ⟨p, st, n, e, buf, o, ins, k⟩ := s
  cases st
  · exact .inr (.inl ⟨rfl, rfl⟩)
  · exact .inl ⟨rfl, rfl⟩
  · exact .inl ⟨rfl, rfl⟩
  · exact .inl ⟨rfl, rfl⟩
  · exact .inr (.inr (.inl ⟨rfl, rfl⟩))
  · exact .inr (.inr (.inr ⟨rfl, rfl⟩))

end Sys2Proof.Machine
end

