-- ==== Sys2Proof/Laws/PerInstr.lean ====
section
/-! SUPPORT. Statements about every operation as syntax, one lemma a constructor. -/

-- One proof at a time: the file then compiles with the default thread stacks too.
set_option Elab.async false

namespace Sys2Proof.Laws.PortsReadBack

/-- The operand ports that the encoder writes for a well-formed operation read back as that operation, for its own row of
30_encoding.md R81. -/
def Statement (i : Instr) : Prop := i.wf = true → decodePorts i.opcode (operandPorts i) = .ok i

theorem frameEnc (cmd : Byte) (hasSub : Bool) (sub : Byte) (payload : List Byte) :
    Statement (.frameEnc cmd hasSub sub payload) := by
  intro h
  have hl : payload.length < 2 ^ 8 := by simpa [Instr.wf] using h
  have hp : readPort .plen 8 payload.length = .ok (BitVec.ofNat 8 payload.length) := if_pos hl
  have hn : (BitVec.ofNat 8 payload.length).toNat = payload.length := by
    rw [BitVec.toNat_ofNat]; exact Nat.mod_eq_of_lt hl
  simp only [Instr.opcode, operandPorts, decodePorts, readPort_toNat, readBit_toNat, hp, bind, Except.bind, hn,
    readCounted_writeBytes]
  rfl

theorem rxStart : Statement .rxStart := fun _ => rfl

theorem rxByte (b : Byte) : Statement (.rxByte b) := fun _ => by
  simp [Instr.opcode, operandPorts, decodePorts, bind, Except.bind, pure, Except.pure]

theorem rxTimeout : Statement .rxTimeout := fun _ => rfl

theorem rxRead : Statement .rxRead := fun _ => rfl

theorem bcdEnc (v : BitVec 8) : Statement (.bcdEnc v) := fun _ => by
  simp [Instr.opcode, operandPorts, decodePorts, bind, Except.bind, pure, Except.pure]

theorem bcdDec (b : Byte) : Statement (.bcdDec b) := fun _ => by
  simp [Instr.opcode, operandPorts, decodePorts, bind, Except.bind, pure, Except.pure]

theorem bswap (d : List Byte) : Statement (.bswap d) := by
  intro h
  have hl : d.length < 2 ^ 8 := by simpa [Instr.wf] using h
  have hp : readPort .n 8 d.length = .ok (BitVec.ofNat 8 d.length) := if_pos hl
  have hn : (BitVec.ofNat 8 d.length).toNat = d.length := by
    rw [BitVec.toNat_ofNat]; exact Nat.mod_eq_of_lt hl
  simp only [Instr.opcode, operandPorts, decodePorts, hp, bind, Except.bind, hn, readCounted_writeBytes]
  rfl

theorem freqEnc (hz : BitVec 34) : Statement (.freqEnc hz) := fun _ => by
  simp [Instr.opcode, operandPorts, decodePorts, bind, Except.bind, pure, Except.pure]

theorem freqDec (resp : List Byte) : Statement (.freqDec resp) := fun _ => by
  simp [Instr.opcode, operandPorts, decodePorts, bind, Except.bind, pure, Except.pure]

theorem timeEnc (hour minute : BitVec 8) : Statement (.timeEnc hour minute) := fun _ => by
  simp [Instr.opcode, operandPorts, decodePorts, bind, Except.bind, pure, Except.pure]

theorem timeDec (resp : List Byte) : Statement (.timeDec resp) := fun _ => by
  simp [Instr.opcode, operandPorts, decodePorts, bind, Except.bind, pure, Except.pure]

theorem dateEnc (year : BitVec 14) (month day : BitVec 8) : Statement (.dateEnc year month day) := fun _ => by
  simp [Instr.opcode, operandPorts, decodePorts, bind, Except.bind, pure, Except.pure]

theorem dateDec (resp : List Byte) : Statement (.dateDec resp) := fun _ => by
  simp [Instr.opcode, operandPorts, decodePorts, bind, Except.bind, pure, Except.pure]

end Sys2Proof.Laws.PortsReadBack
end

