-- ==== Sys2Proof/Laws/Run.lean ====
section
/-! SUPPORT. What a step can do, once, and runs of steps by their first step. -/

namespace Sys2Proof.Machine

/-- No step: the state as it is. -/
theorem core_run_zero (s : State) : Host.Core.run Sys2Proof.core 0 s = .next s := rfl

/-- A run whose first step answers a next state goes on from it. -/
theorem core_run_succ_of_next {s u : State} (k : Nat) (h : step s = .next u) :
    Host.Core.run Sys2Proof.core (k + 1) s = Host.Core.run Sys2Proof.core k u := by
  have general : ∀ (M : Host.Core) (s u : M.State), M.step s = .next u → M.run (k + 1) s = M.run k u := by
    intro M s u h; simp only [Host.Core.run, h]
  exact general Sys2Proof.core s u h

/-- A run whose first step faults ends there. -/
theorem core_run_succ_of_fault {s : State} {f : Fault} (k : Nat) (h : step s = .fault f) :
    Host.Core.run Sys2Proof.core (k + 1) s = .fault f := by
  have general : ∀ (M : Host.Core) (s : M.State) (f : M.Fault), M.step s = .fault f → M.run (k + 1) s = .fault f := by
    intro M s f h; simp only [Host.Core.run, h]
  exact general Sys2Proof.core s f h

/-- A run whose first step is refused ends there. -/
theorem core_run_succ_of_refused {s : State} {r : Refusal} (k : Nat) (h : step s = .refused r) :
    Host.Core.run Sys2Proof.core (k + 1) s = .refused r := by
  have general : ∀ (M : Host.Core) (s : M.State) (r : M.Refusal), M.step s = .refused r → M.run (k + 1) s = .refused r := by
    intro M s r h; simp only [Host.Core.run, h]
  exact general Sys2Proof.core s r h

/-- A run that ends in a next state begins with a step that does. -/
theorem core_run_succ_next {k : Nat} {s t : State} (h : Host.Core.run Sys2Proof.core (k + 1) s = .next t) :
    ∃ u : State, step s = .next u ∧ Host.Core.run Sys2Proof.core k u = .next t := by
  cases hs : step s with
  | next u => exact ⟨u, rfl, core_run_succ_of_next k hs ▸ h⟩
  | fault f => rw [core_run_succ_of_fault k hs] at h; cases h
  | refused r => rw [core_run_succ_of_refused k hs] at h; cases h

/-- Everything a step can do where it answers a next state: keep it (nothing presented), reset, report a reserved selector, or run an
operation on the state with its input taken. -/
theorem step_next_cases {s t : State} (h : step s = .next t) :
    (s.inputs = [] ∧ t = s) ∨
    (∃ rest, s.inputs = .reset :: rest ∧ t = State.applyReset { s with inputs := rest }) ∨
    (∃ r rest op, s.inputs = .request r :: rest ∧ decode r = .error (.reservedOp op) ∧
      t = { s with inputs := rest, out := some (.raised .illop) }) ∨
    (∃ r rest i, s.inputs = .request r :: rest ∧ decode r = .ok i ∧ exec i { s with inputs := rest } = .next t) := by
  unfold step runNext at h
  split at h
  · cases h; exact .inl ⟨‹_›, rfl⟩
  · rename_i x rest hx
    unfold runInput at h
    split at h
    · unfold runRequest at h
      split at h
      · exact .inr (.inr (.inr ⟨_, _, _, hx, ‹_›, h⟩))
      · cases h; exact .inr (.inr (.inl ⟨_, _, _, hx, ‹_›, rfl⟩))
      all_goals cases h
    · cases h; exact .inr (.inl ⟨_, hx, rfl⟩)

end Sys2Proof.Machine
end

