-- ==== Sys2Proof/Machine/Asm.lean ====
section
/-! DEFINITION. The text of one step in the assembler syntax of 30_encoding.md R84: bytes as `0xHH`, numbers in decimal. The name of
an earlier step's result (`<T>`) is the host's shorthand for its bytes and has no text of its own here (log 15). -/

namespace Sys2Proof.Machine

/-- The mnemonic of a row of 30_encoding.md R80. -/
def mnemonicText : Opcode → List Char
  | .frameEnc => ['F', 'R', 'A', 'M', 'E', '_', 'E', 'N', 'C']
  | .rxStart => ['R', 'X', '_', 'S', 'T', 'A', 'R', 'T']
  | .rxByte => ['R', 'X', '_', 'B', 'Y', 'T', 'E']
  | .rxTimeout => ['R', 'X', '_', 'T', 'I', 'M', 'E', 'O', 'U', 'T']
  | .rxRead => ['R', 'X', '_', 'R', 'E', 'A', 'D']
  | .bcdEnc => ['B', 'C', 'D', '_', 'E', 'N', 'C']
  | .bcdDec => ['B', 'C', 'D', '_', 'D', 'E', 'C']
  | .bswap => ['B', 'S', 'W', 'A', 'P']
  | .freqEnc => ['F', 'R', 'E', 'Q', '_', 'E', 'N', 'C']
  | .freqDec => ['F', 'R', 'E', 'Q', '_', 'D', 'E', 'C']
  | .timeEnc => ['T', 'I', 'M', 'E', '_', 'E', 'N', 'C']
  | .timeDec => ['T', 'I', 'M', 'E', '_', 'D', 'E', 'C']
  | .dateEnc => ['D', 'A', 'T', 'E', '_', 'E', 'N', 'C']
  | .dateDec => ['D', 'A', 'T', 'E', '_', 'D', 'E', 'C']

/-- A hexadecimal digit, in capitals. -/
def hexChar (n : Nat) : Char :=
  ['0', '1', '2', '3', '4', '5', '6', '7', '8', '9', 'A', 'B', 'C', 'D', 'E', 'F'].getD n '0'

/-- A byte as `0xHH`. -/
def byteText (b : Byte) : List Char := ['0', 'x', hexChar (b.toNat / 16), hexChar (b.toNat % 16)]

/-- A number in decimal. -/
def numberText (n : Nat) : List Char := Nat.toDigits 10 n

/-- Operands apart by a comma. -/
def commas : List (List Char) → List Char
  | [] => []
  | [x] => x
  | x :: y :: rest => x ++ [',', ' '] ++ commas (y :: rest)

/-- A brace list of bytes (the braces are the characters 123 and 125). -/
def braceText (bs : List Byte) : List Char := Char.ofNat 123 :: (commas (bs.map byteText) ++ [Char.ofNat 125])

/-- The operands of a step; `-` stands for no sub-command. -/
def operandTexts : Instr → List (List Char)
  | .frameEnc cmd hasSub sub payload => [byteText cmd, if hasSub then byteText sub else ['-'], braceText payload]
  | .rxStart => []
  | .rxByte b => [byteText b]
  | .rxTimeout => []
  | .rxRead => []
  | .bcdEnc v => [numberText v.toNat]
  | .bcdDec b => [byteText b]
  | .bswap d => [numberText d.length, braceText d]
  | .freqEnc hz => [numberText hz.toNat]
  | .freqDec resp => [braceText resp]
  | .timeEnc hour minute => [numberText hour.toNat, numberText minute.toNat]
  | .timeDec resp => [braceText resp]
  | .dateEnc year month day => [numberText year.toNat, numberText month.toNat, numberText day.toNat]
  | .dateDec resp => [braceText resp]

/-- The line of one step. -/
def asmText (i : Instr) : List Char :=
  match operandTexts i with
  | [] => mnemonicText i.opcode
  | ops => mnemonicText i.opcode ++ [' '] ++ commas ops

end Sys2Proof.Machine
end

