-- ==== Sys2Proof/Tests/Slice0.lean ====
section
/-! SUPPORT. The implementer's own tests. Expected results are the vectors and programs of 95_test_vectors.md (named in each comment);
the `witness_` theorems show values that meet the hypotheses of the statement of that name, at the boundary of each clause. -/

-- One proof at a time: the file then compiles with the default thread stacks too.
set_option Elab.async false

namespace Sys2Proof.Tests

open Sys2Proof Sys2Proof.Machine

/-- The parameters of the vectors (00_scope.md R5): 0x94, 0xE0, `N_RX` 16, `P_MAX` 8, `TIME_PAD` false. -/
def vectorParams : Params := { radioAddr := 0x94, ctrlAddr := 0xE0, nRx := 16, pMax := 8, timePad := false }

/-- A state by its receiver triple, as 95_test_vectors.md writes it. -/
def rx (st : RxState) (n : Nat) (e : Status) : State where
  params := vectorParams
  rxState := st
  rxLen := n
  rxStatus := e
  rxBuf := List.replicate 16 0
  out := none
  inputs := []
  resets := 0

/-- The idle block of the vectors. -/
def idle : State := rx .idle 0 .ok

/-- The idle block with `TIME_PAD` true. -/
def padded : State := { idle with params := { vectorParams with timePad := true } }

/-- The record a step gave. -/
def outOf : Answer → Option Record
  | .next t => t.out
  | .fault _ => none
  | .refused _ => none

/-- The receiver triple after a step. -/
def tripleOf : Answer → Option (RxState × Nat × Status)
  | .next t => some (t.rxState, t.rxLen, t.rxStatus)
  | .fault _ => none
  | .refused _ => none

/-- Whether an answer is a next state. -/
def isNext : Answer → Bool
  | .next _ => true
  | .fault _ => false
  | .refused _ => false

theorem idle_inv : idle.Inv := ⟨by decide, rfl, by decide, by decide, by decide, by decide, by decide⟩
theorem err_inv (e : Status) (h : e = .timeout ∨ e = .malformed ∨ e = .overflow) : (rx .err 0 e).Inv :=
  ⟨show 8 ≤ 16 ∧ 5 ≤ 8 by decide, rfl, Nat.zero_le _, fun _ => rfl, fun h => absurd rfl h, fun _ => h, by simp [rx]⟩
theorem body_inv : (rx .body 3 .ok).Inv := ⟨by decide, rfl, by decide, by decide, by decide, by decide, by decide⟩
theorem done_inv : (rx .done 16 .ok).Inv := ⟨by decide, rfl, by decide, by decide, by decide, by decide, by decide⟩

/-! ### WellFormed -/

theorem test_wf_refuses_long_payload : (Instr.frameEnc 0 false 0 (List.replicate 256 0)).wf = false := by decide +kernel
theorem test_wf_admits_longest_payload : (Instr.frameEnc 0 false 0 (List.replicate 255 0)).wf = true := by decide +kernel
theorem test_wf_refuses_long_field : (Instr.bswap (List.replicate 256 0)).wf = false := by decide +kernel
theorem test_wf_admits_longest_field : (Instr.bswap (List.replicate 255 0)).wf = true := by decide +kernel

/-! ### Decoding: requests written out from the encodings of 95_test_vectors.md Part 3 and 30_encoding.md R80, R81 -/

/-- P2 step 2: `01 | CMD=40 HAS_SUB=1 SUB=01 PLEN=04 PAYLOAD=20 24 03 07`. -/
theorem test_decode_frame_enc : decode [0b00000001, 0x40, 1, 0x01, 0x04, 0x20, 0x24, 0x03, 0x07] =
    .ok (.frameEnc 0x40 true 0x01 [0x20, 0x24, 0x03, 0x07]) := by rfl
/-- P1 step 2: `02`. -/
theorem test_decode_rx_start : decode [0b00000010] = .ok .rxStart := by rfl
/-- P1 step 4: `03 | B=FE`. -/
theorem test_decode_rx_byte : decode [0b00000011, 0xFE] = .ok (.rxByte 0xFE) := by rfl
/-- P3 step 10: `04`. -/
theorem test_decode_rx_timeout : decode [0b00000100] = .ok .rxTimeout := by rfl
/-- P1 step 15: `05`. -/
theorem test_decode_rx_read : decode [0b00000101] = .ok .rxRead := by rfl
theorem test_decode_bcd_enc : decode [0b00010000, 42] = .ok (.bcdEnc 42) := by rfl
/-- P5 step 4: `11 | B=45`. -/
theorem test_decode_bcd_dec : decode [0b00010001, 0x45] = .ok (.bcdDec 0x45) := by rfl
/-- P1 step 17: `20 | N=05 D=00 07 01 14 00`. -/
theorem test_decode_bswap : decode [0b00100000, 0x05, 0x00, 0x07, 0x01, 0x14, 0x00] =
    .ok (.bswap [0x00, 0x07, 0x01, 0x14, 0x00]) := by rfl
/-- P5 step 1: `30 | HZ=0008AC2760`. -/
theorem test_decode_freq_enc : decode [0b00110000, 0x0008AC2760] = .ok (.freqEnc 145500000) := by rfl
/-- P5 step 9: `31 | RLEN=5 RESP=00 00 50 45 01`. -/
theorem test_decode_freq_dec : decode [0b00110001, 5, 0x00, 0x00, 0x50, 0x45, 0x01] =
    .ok (.freqDec [0x00, 0x00, 0x50, 0x45, 0x01]) := by rfl
/-- P4 step 1: `32 | HOUR=09 MINUTE=1E`. -/
theorem test_decode_time_enc : decode [0b00110010, 0x09, 0x1E] = .ok (.timeEnc 9 30) := by rfl
/-- P4 step 4: `33 | RLEN=6 RESP=94 E0 41 02 19 30`. -/
theorem test_decode_time_dec : decode [0b00110011, 6, 0x94, 0xE0, 0x41, 0x02, 0x19, 0x30] =
    .ok (.timeDec [0x94, 0xE0, 0x41, 0x02, 0x19, 0x30]) := by rfl
/-- P2 step 1: `34 | YEAR=07E8 MONTH=03 DAY=07`. -/
theorem test_decode_date_enc : decode [0b00110100, 0x07E8, 0x03, 0x07] = .ok (.dateEnc 2024 3 7) := by rfl
/-- P2 step 8: `35 | RLEN=3 RESP=E0 94 FB`. -/
theorem test_decode_date_dec : decode [0b00110101, 3, 0xE0, 0x94, 0xFB] = .ok (.dateDec [0xE0, 0x94, 0xFB]) := by rfl

theorem test_decode_reserved : decode [0x06] = .error (.reservedOp 6) := by rfl
theorem test_decode_no_selector : decode [] = .error .noSelector := by rfl
theorem test_decode_wide_selector : decode [0x101] = .error (.selectorTooWide 0x101) := by rfl
theorem test_decode_wide_port : decode [0x30, 2 ^ 34] = .error (.portTooWide .hz (2 ^ 34)) := by rfl
theorem test_decode_wide_bit : decode [0x01, 0, 2, 0, 0] = .error (.portTooWide .hasSub 2) := by rfl
theorem test_decode_missing_port : decode [0x32, 9] = .error (.wrongPorts .timeEnc) := by rfl
theorem test_decode_wrong_count : decode [0x20, 2, 0x12] = .error (.wrongPorts .bswap) := by rfl
/-- The encoder writes P2 step 2 as the program has it. -/
theorem test_encode_frame_enc : encode (.frameEnc 0x40 true 0x01 [0x20, 0x24, 0x03, 0x07]) =
    [0x01, 0x40, 1, 0x01, 0x04, 0x20, 0x24, 0x03, 0x07] := by decide
theorem test_table_word_reserved : decodeTableWord 8 0x36 = none := by rfl

/-! ### The operations -/

/-- V-FE-4. -/
theorem test_frame_enc_with_sub : outOf (exec (.frameEnc 0x40 true 0x01 [0x20, 0x24, 0x03, 0x07]) idle) =
    some (.ok (.frame [0xFE, 0xFE, 0x94, 0xE0, 0x40, 0x01, 0x20, 0x24, 0x03, 0x07, 0xFD])) := by decide
/-- V-FE-6. -/
theorem test_frame_enc_too_long : outOf (exec (.frameEnc 0x01 false 0 [0, 1, 2, 3, 4, 5, 6, 7, 8]) idle) = some (.raised .len) := by
  decide
/-- V-RC-6. -/
theorem test_rx_start_discards : tripleOf (exec .rxStart (rx .done 8 .ok)) = some (.hunt, 0, .ok) := by decide
/-- V-RC-3. -/
theorem test_rx_start_busy : outOf (exec .rxStart (rx .hunt 0 .ok)) = some (.raised .busy) := by decide
/-- V-RX-12, its last byte. -/
theorem test_rx_byte_overflow : tripleOf (exec (.rxByte 0x10) (rx .body 16 .ok)) = some (.err, 0, .overflow) := by decide
/-- V-RX-11, its last byte: the terminator is tested before the overflow. -/
theorem test_rx_byte_terminator_when_full : tripleOf (exec (.rxByte 0xFD) (rx .body 16 .ok)) = some (.done, 16, .ok) := by decide
/-- V-RX-10, its timeout. -/
theorem test_rx_timeout_drops_bytes : tripleOf (exec .rxTimeout (rx .body 2 .ok)) = some (.err, 0, .timeout) := by decide
/-- V-RC-1. -/
theorem test_rx_read_empty : outOf (exec .rxRead idle) = some (.raised .empty) := by decide
/-- V-RX-3, its read. -/
theorem test_rx_read_malformed : outOf (exec .rxRead (rx .err 0 .malformed)) = some (.raised .malformed) := by decide
/-- V-BE-4. -/
theorem test_bcd_enc_42 : outOf (exec (.bcdEnc 42) idle) = some (.ok (.bcdByte 0x42)) := by decide
/-- V-BE-6. -/
theorem test_bcd_enc_100 : outOf (exec (.bcdEnc 100) idle) = some (.raised .range) := by decide
/-- V-BD-4. -/
theorem test_bcd_dec_14 : outOf (exec (.bcdDec 0x14) idle) = some (.ok (.value 14)) := by decide
/-- V-BD-7. -/
theorem test_bcd_dec_high_nibble : outOf (exec (.bcdDec 0xA0) idle) = some (.raised .badBcd) := by decide
/-- V-BS-5. -/
theorem test_bswap_five : outOf (exec (.bswap [0x00, 0x07, 0x01, 0x14, 0x00]) idle) =
    some (.ok (.swapped [0x00, 0x14, 0x01, 0x07, 0x00])) := by decide
/-- V-BS-8. -/
theorem test_bswap_six : outOf (exec (.bswap [1, 2, 3, 4, 5, 6]) idle) = some (.raised .len) := by decide
/-- V-FQ-8. -/
theorem test_freq_enc : outOf (exec (.freqEnc 1296000000) idle) = some (.ok (.freqField [0x00, 0x00, 0x00, 0x96, 0x12])) := by decide
/-- V-FQ-10. -/
theorem test_freq_enc_range : outOf (exec (.freqEnc 10000000000) idle) = some (.raised .range) := by decide
/-- V-FD-1. -/
theorem test_freq_dec : outOf (exec (.freqDec [0x94, 0xE0, 0x03, 0x00, 0x07, 0x01, 0x14, 0x00]) idle) =
    some (.ok (.hz 14010700)) := by decide
/-- V-FD-6. -/
theorem test_freq_dec_bad : outOf (exec (.freqDec [0x94, 0xE0, 0x03, 0x00, 0x07, 0x01, 0x1A, 0x00]) idle) = some (.raised .badBcd) := by
  decide
/-- V-TE-9. -/
theorem test_time_enc_range_first : outOf (exec (.timeEnc 24 5) idle) = some (.raised .range) := by decide
/-- V-TE-11. -/
theorem test_time_enc_padded : outOf (exec (.timeEnc 9 30) padded) = some (.ok (.timeField [0x09, 0x30])) := by decide
/-- V-TD-4. -/
theorem test_time_dec_unchecked : outOf (exec (.timeDec [0x25, 0x99]) idle) = some (.ok (.time 25 99)) := by decide
/-- V-TD-5. -/
theorem test_time_dec_short : outOf (exec (.timeDec [0x14]) idle) = some (.raised .short) := by decide
/-- V-DE-2. -/
theorem test_date_enc : outOf (exec (.dateEnc 2005 12 31) idle) = some (.ok (.dateField [0x20, 0x05, 0x12, 0x31])) := by decide
/-- V-DE-11. -/
theorem test_date_enc_day_range : outOf (exec (.dateEnc 2024 1 32) idle) = some (.raised .range) := by decide
/-- V-DD-1. -/
theorem test_date_dec : outOf (exec (.dateDec [0x94, 0xE0, 0x20, 0x24, 0x03, 0x07]) idle) = some (.ok (.date 2024 3 7)) := by decide
/-- V-DD-7. -/
theorem test_date_dec_echo : outOf (exec (.dateDec [0x94, 0xE0, 0x03, 0x00]) idle) = some (.raised .badBcd) := by decide

/-! ### The step -/

/-- V-RC-10. -/
theorem test_step_reserved : outOf (step { rx .body 3 .ok with inputs := [.request [0x06]] }) = some (.raised .illop) := by decide
/-- V-RC-11. -/
theorem test_step_reset : tripleOf (step { rx .body 3 .ok with inputs := [.reset] }) = some (.idle, 0, .ok) := by decide
/-- V-RC-8: no step exists. -/
theorem test_step_byte_not_pending : step { idle with inputs := [.request [0x03, 0xFE]] } = .fault .noPendingRead := by rfl
/-- Right after power-on, whatever the parameters, a request runs. -/
theorem test_step_after_reset : tripleOf (step (State.reset.withFetchWord 8 0x02)) = some (.hunt, 0, .ok) := by rfl
/-- 30_encoding.md R84, `BCD_DEC 0x14` and `TIME_ENC 9, 30`. -/
theorem test_asm_bcd_dec : asmText (.bcdDec 0x14) = ['B', 'C', 'D', '_', 'D', 'E', 'C', ' ', '0', 'x', '1', '4'] := by decide
theorem test_asm_time_enc : asmText (.timeEnc 9 30) =
    ['T', 'I', 'M', 'E', '_', 'E', 'N', 'C', ' ', '9', ',', ' ', '3', '0'] := by decide

/-! ### Witnesses of the statements' hypotheses -/

theorem witness_BcdHelpersFollowNibbles : isBcd 0x99 = true ∧ isBcd 0x00 = true ∧ 99 ≤ 99 := by decide
theorem witness_NonBcdBytesRejected : isBcd 0x9A = false ∧ isBcd 0xA0 = false ∧ (0x9A : Byte) ∈ [(0 : Byte), 0, 0, 0, 0x9A] ∧
    [(0 : Byte), 0, 0, 0, 0x9A].length = 5 ∧ [(0xA0 : Byte), 0].length = 2 ∧ [(0 : Byte), 0xA0, 0, 0].length = 4 := by decide
theorem witness_BcdEncPacksTwoDigits : (99 : BitVec 8).toNat ≤ 99 ∧ 99 < (100 : BitVec 8).toNat := by decide
theorem witness_BcdDecReadsTwoDigits : (0x99 : Byte).toNat / 16 ≤ 9 ∧ (0x99 : Byte).toNat % 16 ≤ 9 ∧
    9 < (0xA0 : Byte).toNat / 16 ∧ 9 < (0x0A : Byte).toNat % 16 := by decide
theorem witness_BcdRoundTrip : (99 : BitVec 8).toNat ≤ 99 ∧ isBcd 0x99 = true := by decide
theorem witness_TextMethodAgrees : isBcd 0x99 = true ∧ 10 ≤ 10 ∧ 99 ≤ 99 := by decide
theorem witness_FrameEncBuildsFrame : [(0 : Byte), 1, 2, 3, 4, 5, 6, 7].length ≤ idle.params.pMax ∧
    idle.params.pMax < [(0 : Byte), 1, 2, 3, 4, 5, 6, 7, 8].length := by decide
theorem witness_FrameLayoutByOffset : [(0 : Byte), 1, 2, 3, 4, 5, 6, 7].length ≤ idle.params.pMax ∧ 7 < 8 := by decide
/-- The deepest frame `N_RX` admits: a payload of 8 and a sub-command in a block of `N_RX` 12. -/
theorem witness_EncodedFrameReadBack :
    let s : State := { idle with params := { vectorParams with nRx := 12 }, rxBuf := List.replicate 12 0 }
    s.pending = false ∧ s.rxBuf.length = s.params.nRx ∧ [(0 : Byte), 1, 2, 3, 4, 5, 6, 7].length ≤ s.params.pMax ∧
    0xFD ∉ [s.params.radioAddr, s.params.ctrlAddr, 0x40] ++ (if true then [0x01] else []) ++ [(0 : Byte), 1, 2, 3, 4, 5, 6, 7] ∧
    0xFE ∉ [s.params.radioAddr, s.params.ctrlAddr, 0x40] ++ (if true then [0x01] else []) ++ [(0 : Byte), 1, 2, 3, 4, 5, 6, 7] ∧
    15 - 3 ≤ s.params.nRx := by decide
theorem witness_RxStartBeginsReceive : idle.rxState = .idle ∧ (rx .done 16 .ok).rxState = .done ∧ (rx .err 0 .timeout).rxState = .err ∧
    (rx .hunt 0 .ok).rxState = .hunt ∧ (rx .pre2 0 .ok).rxState = .pre2 ∧ (rx .body 16 .ok).rxState = .body := by decide
theorem witness_HuntWaitsForPreamble : (rx .hunt 0 .ok).rxState = .hunt ∧ (0xFD : Byte) ≠ 0xFE := by decide
theorem witness_SecondPreambleRequired : (rx .pre2 0 .ok).rxState = .pre2 ∧ (0xFD : Byte) ≠ 0xFE := by decide
theorem witness_BodyByteEndsAppendsOrOverflows : (rx .body 15 .ok).rxState = .body ∧ (0xFE : Byte) ≠ 0xFD ∧
    (rx .body 15 .ok).rxLen < (rx .body 15 .ok).params.nRx ∧ (rx .body 16 .ok).params.nRx ≤ (rx .body 16 .ok).rxLen := by decide
theorem witness_TimeoutFailsReceive : (rx .hunt 0 .ok).rxState = .hunt ∧ (rx .pre2 0 .ok).rxState = .pre2 ∧
    (rx .body 16 .ok).rxState = .body ∧ idle.rxState = .idle ∧ (rx .done 16 .ok).rxState = .done ∧
    (rx .err 0 .malformed).rxState = .err := by decide
theorem witness_ReceiveEventsOnlyWhilePending : (rx .hunt 0 .ok).rxState = .hunt ∧ (rx .pre2 0 .ok).rxState = .pre2 ∧
    (rx .body 0 .ok).rxState = .body ∧ idle.rxState = .idle ∧ (rx .done 0 .ok).rxState = .done ∧ (rx .err 0 .timeout).rxState = .err := by
  decide
theorem witness_RxReadTakesResult : (rx .hunt 0 .ok).rxState = .hunt ∧ (rx .pre2 0 .ok).rxState = .pre2 ∧
    (rx .body 16 .ok).rxState = .body ∧ idle.rxState = .idle ∧ (rx .done 16 .ok).rxState = .done ∧
    (rx .err 0 .overflow).rxState = .err := by decide
theorem witness_ReceiverIsReadFrame : idle.pending = false ∧ idle.rxBuf.length = idle.params.nRx ∧
    huntResult 16 [.byte 0xFE, .byte 0xFE, .byte 0x94] = none ∧
    huntResult 16 [.byte 0xFE, .byte 0xFE, .byte 0x94, .byte 0xFD] = some (.ok (.resp [0x94])) := by decide
/-- The byte at index `RX_LEN` differs; a step answers a next state on one, a fault and a refusal on others. -/
theorem witness_BufferBeyondLenUnobservable :
    State.sameObservable idle { idle with rxBuf := 1 :: List.replicate 15 0 } ∧
    Host.Core.run Sys2Proof.core 1 idle = .next idle ∧
    Host.Core.run Sys2Proof.core 1 ({ idle with inputs := [.request [0x04]] } : State) = .fault .noPendingRead ∧
    Host.Core.run Sys2Proof.core 1 ({ idle with inputs := [.request []] } : State) = .refused (.badRequest .noSelector) :=
  ⟨⟨rfl, rfl, rfl⟩, rfl, rfl, rfl⟩
theorem witness_ReceiverIgnoresAddresses : Instr.rxRead ∈ [Instr.rxStart, .rxTimeout, .rxRead] ∧
    ({ vectorParams with radioAddr := 0x70 } : Params).nRx = idle.params.nRx ∧ isNext (exec .rxRead idle) = true ∧
    isNext (exec .rxTimeout idle) = false := by decide
theorem witness_FirstTerminatorEndsFrame : idle.pending = false ∧ idle.rxBuf.length = idle.params.nRx ∧
    (0xFE : Byte) ∉ [(0x00 : Byte), 0xFD] ∧ (0xFD : Byte) ∉ List.replicate 16 (0xFE : Byte) ∧
    (List.replicate 16 (0xFE : Byte)).length ≤ idle.params.nRx := by decide
theorem witness_OverlongBodyOverflows : idle.pending = false ∧ (0xFD : Byte) ∉ List.replicate 17 (0xFE : Byte) ∧
    idle.params.nRx < (List.replicate 17 (0xFE : Byte)).length := by decide
theorem witness_HuntMayNotEnd : (rx .hunt 0 .ok).rxState = .hunt ∧ (0xFE : Byte) ∉ [(0x11 : Byte), 0xFD] := by decide
theorem witness_FailedReadReturnsNoBytes : (rx .err 0 .timeout).Inv ∧ (rx .done 16 .ok).Inv := ⟨err_inv _ (by decide), done_inv⟩
theorem witness_ErrLeftOnlyByReadOrStart : (rx .err 0 .timeout).rxState = .err ∧
    tripleOf (exec .rxRead (rx .err 0 .timeout)) = some (.idle, 0, .ok) ∧
    tripleOf (exec .rxStart (rx .err 0 .timeout)) = some (.hunt, 0, .ok) := by decide
theorem witness_ReceiverRegisterWriters :
    exec (.rxByte 1) (rx .body 0 .ok) =
      .next { rx .body 0 .ok with rxBuf := (List.replicate 16 0).set 0 1, rxLen := 1, out := none } ∧
    (List.replicate 16 (0 : Byte)).set 0 1 ≠ List.replicate 16 0 ∧
    tripleOf (exec (.rxByte 0) (rx .pre2 0 .ok)) = some (.err, 0, .malformed) := ⟨rfl, by decide, by decide⟩
theorem witness_BswapReversesBytes : 1 ≤ [(1 : Byte)].length ∧ [(1 : Byte), 2, 3, 4, 5].length ≤ 5 ∧ ([] : List Byte).length = 0 ∧
    5 < [(1 : Byte), 2, 3, 4, 5, 6].length := by decide
theorem witness_BswapIsInvolution : 1 ≤ [(1 : Byte), 2, 3, 4, 5].length ∧ [(1 : Byte), 2, 3, 4, 5].length ≤ 5 := by decide
theorem witness_FreqEncPacksTenDigits : (9999999999 : BitVec 34).toNat < 10 ^ 10 ∧ 10 ^ 10 ≤ (10000000000 : BitVec 34).toNat := by decide
theorem witness_FreqDecReadsTail : [(0 : Byte), 0, 0, 0].length < 5 ∧ (∀ b ∈ [(0x99 : Byte), 0x99, 0x99, 0x99, 0x99], isBcd b = true) ∧
    ∃ b ∈ [(0x99 : Byte), 0x99, 0x99, 0x99, 0x9A], isBcd b = false := by decide
theorem witness_FreqRoundTrip : (9999999999 : BitVec 34).toNat < 10 ^ 10 ∧ [(0x99 : Byte), 0x99, 0x99, 0x99, 0x99].length = 5 ∧
    ∀ b ∈ [(0x99 : Byte), 0x99, 0x99, 0x99, 0x99], isBcd b = true := by decide
theorem witness_FreqReadsThroughSwapper : (9999999999 : BitVec 34).toNat < 10 ^ 10 ∧
    [(0x99 : Byte), 0x99, 0x99, 0x99, 0x99].length = 5 ∧ ∀ b ∈ [(0x99 : Byte), 0x99, 0x99, 0x99, 0x99], isBcd b = true := by decide
theorem witness_TimeEncPacksHourMinute : 23 < (24 : BitVec 8).toNat ∧ 59 < (60 : BitVec 8).toNat ∧ (23 : BitVec 8).toNat ≤ 23 ∧
    (59 : BitVec 8).toNat ≤ 59 ∧ idle.params.timePad = false ∧ (9 : BitVec 8).toNat ≤ 9 ∧ padded.params.timePad = true ∧
    9 < (10 : BitVec 8).toNat := by decide
theorem witness_TimeDecReadsTail : [(0 : Byte)].length < 2 ∧ isBcd 0x99 = true ∧ isBcd 0x9A = false := by decide
theorem witness_TimeRoundTrip : (23 : BitVec 8).toNat ≤ 23 ∧ (59 : BitVec 8).toNat ≤ 59 ∧
    exec (.timeEnc 23 59) idle = .next { idle with out := some (.ok (.timeField [0x23, 0x59])) } := ⟨by decide, by decide, rfl⟩
theorem witness_DateEncPacksYearMonthDay : (999 : BitVec 14).toNat < 1000 ∧ 9999 < (10000 : BitVec 14).toNat ∧
    (0 : BitVec 8).toNat < 1 ∧ 12 < (13 : BitVec 8).toNat ∧ 31 < (32 : BitVec 8).toNat ∧ 1000 ≤ (1000 : BitVec 14).toNat ∧
    (9999 : BitVec 14).toNat ≤ 9999 ∧ 1 ≤ (1 : BitVec 8).toNat ∧ (12 : BitVec 8).toNat ≤ 12 ∧ (31 : BitVec 8).toNat ≤ 31 := by decide
theorem witness_DateDecReadsTail : [(0 : Byte), 0, 0].length < 4 ∧ (∀ b ∈ [(0x99 : Byte), 0x99, 0x99, 0x99], isBcd b = true) ∧
    ∃ b ∈ [(0x99 : Byte), 0x99, 0x99, 0xA9], isBcd b = false := by decide
theorem witness_DateRoundTrip : 1000 ≤ (9999 : BitVec 14).toNat ∧ (9999 : BitVec 14).toNat ≤ 9999 ∧ 1 ≤ (12 : BitVec 8).toNat ∧
    (12 : BitVec 8).toNat ≤ 12 ∧ 1 ≤ (31 : BitVec 8).toNat ∧ (31 : BitVec 8).toNat ≤ 31 := by decide
theorem witness_EncodersEmitNoDelimiter : isBcd 0x99 = true ∧
    fieldOf (outOf (exec (.freqEnc 9999999999) idle)) = some [0x99, 0x99, 0x99, 0x99, 0x99] := by decide
theorem witness_SendFormsFrameTheField : (Instr.timeEnc 9 30).opcode = .timeEnc ∧
    outOf (exec (.timeEnc 9 30) idle) = some (.raised .digit) ∧
    outOf (exec (.timeEnc 19 30) idle) = some (.ok (.timeField [0x19, 0x30])) := by decide
theorem witness_FeedOutlivingFrameIsStuck :
    runAll (rxFeed [0xFE, 0xFE, 0xFD]) (rx .hunt 0 .ok) = .next (rx .done 0 .ok) ∧ (rx .done 0 .ok).pending = false := ⟨rfl, rfl⟩
/-- `N_RX` 9 just holds a frequency response with a sub-command. -/
theorem witness_SentFrequencyReadBack :
    let s : State := { idle with params := { vectorParams with nRx := 9 }, rxBuf := List.replicate 9 0 }
    s.pending = false ∧ s.rxBuf.length = s.params.nRx ∧ s.params.legal ∧ (9999999999 : BitVec 34).toNat < 10 ^ 10 ∧
    0xFD ∉ [s.params.radioAddr, s.params.ctrlAddr, 0x05] ++ (if true then [(0x00 : Byte)] else []) ∧ 8 + true.toNat ≤ s.params.nRx := by
  decide
theorem witness_EchoedReadRequestIsNoField : idle.pending = false ∧ idle.Inv ∧
    0xFD ∉ [idle.params.radioAddr, idle.params.ctrlAddr, 0x03] ∧ idle.params.ctrlAddr = 0xE0 :=
  ⟨rfl, idle_inv, by decide, rfl⟩
theorem witness_DecodeEncodeRoundTrip : (Instr.frameEnc 0xFF true 0xFF [0xFF]).wf = true := by decide
theorem witness_EncodeDecodeRoundTrip : decode [0x32, 0xFF, 0xFF] = .ok (.timeEnc 0xFF 0xFF) := by rfl
theorem witness_ReservedSelectorsReturnIllop : 0x06 ≤ 0x06 ∧ 0x0F ≤ 0x0F ∧ 0x12 ≤ 0x12 ∧ 0x1F ≤ 0x1F ∧ 0x21 ≤ 0x21 ∧ 0x2F ≤ 0x2F ∧
    0x36 ≤ 0x36 ∧ 0xFF ≤ 0xFF ∧
    ({ idle with inputs := [.request [0xFF, 7]] } : State).inputs = .request (0xFF :: [7]) :: [] := by decide
theorem witness_StepRunsDecodedInstruction : ({ idle with inputs := [.request [0x02]] } : State).inputs = .request [0x02] :: [] ∧
    decode [0x02] = .ok .rxStart ∧ Instr.rxStart.wf = true := ⟨rfl, rfl, rfl⟩
theorem witness_IdleStepKeepsState : (rx .body 3 .ok).inputs = [] := rfl
theorem witness_ResetClearsReceiver : ({ rx .body 3 .ok with inputs := [.reset] } : State).inputs = .reset :: [] := rfl
theorem witness_ResetLeavesPureUnits : ({ rx .body 3 .ok with inputs := [.reset] } : State).inputs = .reset :: [] ∧
    isNext (step { rx .body 3 .ok with inputs := [.reset] }) = true ∧ isPure (.timeEnc 9 30) = true := by decide
theorem witness_ResetStateValues : (List.replicate State.reset.params.nRx (1 : Byte)).length = State.reset.params.nRx :=
  List.length_replicate
theorem witness_StepKeepsInvariants : (rx .body 3 .ok).Inv ∧ step (rx .body 3 .ok) = .next (rx .body 3 .ok) ∧
    ({ rx .body 3 .ok with inputs := [.request [0x03, 0xFE]] } : State).Inv ∧
    isNext (step { rx .body 3 .ok with inputs := [.request [0x03, 0xFE]] }) = true :=
  ⟨body_inv, rfl, ⟨by decide, rfl, by decide, by decide, by decide, by decide, by decide⟩, by decide⟩
theorem witness_ReachableStatesMeetInvariants :
    Host.Core.run Sys2Proof.core 1 ({ State.reset with inputs := [.request [0x05]] } : State) =
      .next { State.reset with out := some (.raised .empty) } := rfl
theorem witness_ParametersNeverChange : Host.Core.run Sys2Proof.core 1 ({ idle with inputs := [.request [0x02]] } : State) =
    .next { rx .hunt 0 .ok with out := some (.ok .none) } := rfl
theorem witness_PureOperationsRepeatable : isPure (.bcdEnc 99) = true ∧ (rx .body 3 .ok).params = idle.params := by decide
theorem witness_HostStepsReturnRecords : Instr.rxRead.opcode.issuedBy = .host ∧ Instr.rxTimeout.opcode.issuedBy = .transport ∧
    isNext (exec .rxTimeout (rx .hunt 0 .ok)) = true := by decide
/-- Each status that an operation raises, from a state that meets the invariants (`err_inv`, `idle_inv`, `body_inv`). -/
theorem witness_StatusesComeFromTheirOperations :
    [exec .rxRead (rx .err 0 .timeout), exec .rxRead (rx .err 0 .malformed), exec .rxRead (rx .err 0 .overflow),
     exec (.bcdEnc 100) idle, exec (.timeEnc 9 30) idle, exec (.bcdDec 0x0A) idle, exec (.freqDec []) idle, exec (.bswap []) idle,
     exec .rxStart (rx .body 3 .ok), exec .rxRead idle].map outOf =
    [some (.raised .timeout), some (.raised .malformed), some (.raised .overflow), some (.raised .range), some (.raised .digit),
     some (.raised .badBcd), some (.raised .short), some (.raised .len), some (.raised .busy), some (.raised .empty)] := by decide
theorem witness_StepAnswersExactlyWhenAdmitted :
    ({ idle with inputs := [.request [0x04]] } : State).inputs = .request [0x04] :: [] ∧
    idle.admitsInput (.request [0x04]) = false ∧ (rx .hunt 0 .ok).admitsInput (.request [0x04]) = true := ⟨rfl, by decide, by decide⟩
theorem witness_RunOfPresentedOperations : ∀ i ∈ readFrame [0xFE, 0xFE, 0x94, 0xFD], i.wf = true := by decide

end Sys2Proof.Tests
end

