-- ==== Sys2Proof/Proofs/Scope.lean ====
section
/-! The family 00_scope.md: the operand helpers of R11 as arithmetic on `toNat`, and the parameters of R5, which no step changes. -/

namespace Sys2Proof.Machine

/-! ### The digits of a byte -/

theorem hi_toNat (b : Byte) : (hi b).toNat = b.toNat / 16 := by
  have hb : b.toNat < 256 := b.isLt
  rw [hi, BitVec.extractLsb'_toNat, Nat.shiftRight_eq_div_pow]
  omega

theorem lo_toNat (b : Byte) : (lo b).toNat = b.toNat % 16 := by
  rw [lo, BitVec.extractLsb'_toNat, Nat.shiftRight_zero]

theorem isBcd_iff (b : Byte) : isBcd b = true ↔ b.toNat / 16 ≤ 9 ∧ b.toNat % 16 ≤ 9 := by
  simp only [isBcd, hi_toNat, lo_toNat, Bool.and_eq_true, decide_eq_true_eq]

theorem bcdValue_eq (b : Byte) : bcdValue b = 10 * (b.toNat / 16) + b.toNat % 16 := by
  rw [bcdValue, hi_toNat, lo_toNat]

/-- Both decimal digits of `v` fit a nibble, so appending the nibbles is `16 * tens + units`. -/
theorem bcdByte_toNat {v : Nat} (hv : v ≤ 99) : (bcdByte v).toNat = 16 * (v / 10) + v % 10 := by
  have tens : v / 10 % 2 ^ 4 = v / 10 := by omega
  have units : v % 10 % 2 ^ 4 = v % 10 := by omega
  have fits : v % 10 < 2 ^ 4 := by omega
  rw [bcdByte, BitVec.toNat_append, BitVec.toNat_ofNat, BitVec.toNat_ofNat, tens, units,
    ← Nat.shiftLeft_add_eq_or_of_lt fits, Nat.shiftLeft_eq]
  omega

/-! ### What an operation can do to the parameters -/

/-- Equal parameters give a field decoder one record: it reads its response alone (43_field_codec.md R210). -/
theorem decodeTail_gives (k : Nat) (resp : List Byte) (read : List Byte → Results) :
    ∃ r : Record, ∀ s : State, decodeTail k resp s read = s.give r := by
  unfold decodeTail
  split
  · exact ⟨_, fun _ => rfl⟩
  · split <;> exact ⟨_, fun _ => rfl⟩

/-- A pure operation only gives a record, and the parameters alone of the state decide which (00_scope.md R14(c)). -/
theorem exec_pure_gives {i : Instr} (hi : isPure i = true) (p : Params) :
    ∃ r : Record, ∀ s : State, s.params = p → exec i s = s.give r := by
  cases i with
  | rxStart | rxByte | rxTimeout | rxRead => cases hi
  | frameEnc cmd hasSub sub payload =>
    by_cases hlen : p.pMax < payload.length
    · exact ⟨.raised .len, fun s hs => if_pos (hs ▸ hlen)⟩
    · refine ⟨.ok (.frame (frameBytes p cmd hasSub sub payload)), fun s hs => ?_⟩
      subst hs
      exact if_neg hlen
  | bcdEnc v =>
    simp only [exec, execBcdEnc]
    split <;> exact ⟨_, fun _ _ => rfl⟩
  | bcdDec b =>
    simp only [exec, execBcdDec]
    split <;> exact ⟨_, fun _ _ => rfl⟩
  | bswap d =>
    simp only [exec, execBswap]
    split <;> exact ⟨_, fun _ _ => rfl⟩
  | freqEnc hz =>
    simp only [exec, execFreqEnc]
    split <;> exact ⟨_, fun _ _ => rfl⟩
  | timeEnc hour minute => exact ⟨timeEncRecord p hour minute, fun s hs => hs ▸ rfl⟩
  | dateEnc year month day =>
    simp only [exec, execDateEnc]
    split
    · exact ⟨_, fun _ _ => rfl⟩
    · split
      · exact ⟨_, fun _ _ => rfl⟩
      · split <;> exact ⟨_, fun _ _ => rfl⟩
  | freqDec resp | timeDec resp | dateDec resp =>
    obtain ⟨r, hr⟩ := decodeTail_gives _ resp _
    exact ⟨r, fun s _ => hr s⟩

@[simp] theorem State.appendByte_params (s : State) (b : Byte) : (s.appendByte b).params = s.params := by
  rcases s.appendByte_cases b with ⟨-, h⟩ | ⟨-, h⟩ <;> rw [h]

theorem execRxStart_params {s t : State} (h : execRxStart s = .next t) : t.params = s.params := by
  rcases execRxStart_cases s with ⟨-, e⟩ | ⟨-, e⟩ <;> (cases e.symm.trans h; rfl)

theorem execRxByte_params {b : Byte} {s t : State} (h : execRxByte b s = .next t) : t.params = s.params := by
  rcases execRxByte_cases b s with ⟨-, e⟩ | ⟨-, -, e⟩ | ⟨-, -, e⟩ | ⟨-, -, e⟩ | ⟨-, -, e⟩ | ⟨-, -, e⟩ | ⟨-, -, e⟩
    <;> cases e.symm.trans h <;> simp

theorem execRxTimeout_params {s t : State} (h : execRxTimeout s = .next t) : t.params = s.params := by
  rcases execRxTimeout_cases s with ⟨-, e⟩ | ⟨-, e⟩
  · cases e.symm.trans h
  · cases e.symm.trans h
    rfl

theorem execRxRead_params {s t : State} (h : execRxRead s = .next t) : t.params = s.params := by
  rcases execRxRead_cases s with ⟨-, e⟩ | ⟨-, e⟩ | ⟨-, e⟩ | ⟨-, e⟩ <;> (cases e.symm.trans h; rfl)

theorem exec_pure_params {i : Instr} (hi : isPure i = true) {s t : State} (h : exec i s = .next t) :
    t.params = s.params := by
  obtain ⟨r, hr⟩ := exec_pure_gives hi s.params
  cases (hr s rfl).symm.trans h
  rfl

/-- No operation changes a parameter: the pure ones only give a record, and no receiver row of 40_frame_codec.md R103 writes one. -/
theorem exec_params {i : Instr} {s t : State} (h : exec i s = .next t) : t.params = s.params := by
  cases i with
  | rxStart => exact execRxStart_params h
  | rxByte b => exact execRxByte_params h
  | rxTimeout => exact execRxTimeout_params h
  | rxRead => exact execRxRead_params h
  | frameEnc | bcdEnc | bcdDec | bswap | freqEnc | freqDec | timeEnc | timeDec | dateEnc | dateDec =>
    exact exec_pure_params rfl h

/-! ### Steps and runs -/

theorem step_params {s t : State} (h : step s = .next t) : t.params = s.params := by
  rcases step_next_cases h with ⟨-, rfl⟩ | ⟨rest, -, rfl⟩ | ⟨r, rest, op, -, -, rfl⟩ | ⟨r, rest, i, -, -, hexec⟩
  case inr.inr.inr => exact exec_params (s := { s with inputs := rest }) hexec
  all_goals rfl

/-- What every step keeps, every run keeps. -/
theorem core_run_keeps {P : State → Prop} (hstep : ∀ s t : State, P s → step s = .next t → P t) (k : Nat) {s t : State}
    (hs : P s) (h : Host.Core.run Sys2Proof.core k s = .next t) : P t := by
  induction k generalizing s with
  | zero =>
    cases (core_run_zero s).symm.trans h
    exact hs
  | succ k ih =>
    obtain ⟨u, hsu, hut⟩ := core_run_succ_next h
    exact ih (hstep s u hs hsu) hut

end Sys2Proof.Machine

namespace Sys2Proof.Proofs

open Sys2Proof.Machine

/-- Settles O55: "the parameters are those of the first state" is kept by every step, so by every run. -/
theorem parametersNeverChange : Obligations.ParametersNeverChange := by
  intro k s t h
  exact core_run_keeps (P := fun u => u.params = s.params) (fun _ _ hu hstep => (step_params hstep).trans hu) k rfl h

/-- Settles O1, by the arithmetic of `hi` and `lo` as quotient and remainder by 16. -/
theorem bcdHelpersFollowNibbles : Obligations.BcdHelpersFollowNibbles :=
  ⟨isBcd_iff, fun b _ => bcdValue_eq b, fun _ hv => bcdByte_toNat hv⟩

end Sys2Proof.Proofs
end

