-- ==== Sys2Proof/Proofs/ReceiverState.lean ====
section
/-! The family 10_state.md: the invariants of R30, the bytes of `RX_BUF` that no operation shows (R26), and the writers of the receiver
registers (R28). -/

namespace Sys2Proof.Machine

/-! ### The collected bytes after one more -/

/-- The first `n + 1` bytes after a store at index `n`: the first `n` as they were, then the byte, unless the store fell outside the
buffer and was dropped (log 16). -/
theorem take_succ_set (buf : List Byte) (n : Nat) (b : Byte) :
    (buf.set n b).take (n + 1) = buf.take n ++ if n < buf.length then [b] else [] := by
  rw [List.take_add_one, List.take_set_of_le (Nat.le_refl n), List.getElem?_set_self']
  split <;> simp_all

/-! ### The invariants of R30 -/

/-- No invariant speaks of the result ports or of what is presented. -/
theorem State.Inv.withPorts {s : State} (h : s.Inv) (out : Option Record) (ins : List Input) :
    State.Inv { s with out := out, inputs := ins } :=
  ⟨h.legal, h.depth, h.lenBound, h.lenZero, h.statusOk, h.statusErr, h.noTerminator⟩

/-- With nothing collected, R30 (a), (b) and (e) hold in every receiver state, and what is left is the status. -/
theorem State.inv_of_rxLen_zero {s : State} (hlegal : s.params.legal) (hdepth : s.rxBuf.length = s.params.nRx)
    (hlen : s.rxLen = 0) (hok : s.rxState ≠ .err → s.rxStatus = .ok)
    (herr : s.rxState = .err → s.rxStatus = .timeout ∨ s.rxStatus = .malformed ∨ s.rxStatus = .overflow) : s.Inv where
  legal := hlegal
  depth := hdepth
  lenBound := hlen ▸ Nat.zero_le _
  lenZero := fun _ => hlen
  statusOk := hok
  statusErr := herr
  noTerminator := by simp [hlen]

theorem State.inv_reset : State.reset.Inv :=
  State.inv_of_rxLen_zero Config.block_legal List.length_replicate rfl (fun _ => rfl) nofun

theorem State.Inv.applyReset {s : State} (h : s.Inv) : s.applyReset.Inv :=
  State.inv_of_rxLen_zero h.legal (freshBuffer_length _ _) rfl (fun _ => rfl) nofun

/-- Appending a byte in BODY keeps R30 (e) because the byte is not the terminator, and R30 (a) because a full buffer overflows. -/
theorem State.Inv.appendByte {s : State} (h : s.Inv) (hbody : s.rxState = .body) {b : Byte} (hb : b ≠ terminatorByte) :
    (s.appendByte b).Inv := by
  rcases s.appendByte_cases b with ⟨hroom, e⟩ | ⟨-, e⟩ <;> rw [e]
  · refine ⟨h.legal, List.length_set.trans h.depth, hroom, ?_, h.statusOk, h.statusErr, fun _ x hx => ?_⟩
    · simp [hbody]
    · have hx : x ∈ s.rxBuf.take s.rxLen ++ if s.rxLen < s.rxBuf.length then [b] else [] := by
        rwa [← take_succ_set]
      rcases List.mem_append.mp hx with hold | hnew
      · exact h.noTerminator (.inl hbody) x hold
      · split at hnew
        · exact List.mem_singleton.mp hnew ▸ hb
        · cases hnew
  · exact State.inv_of_rxLen_zero h.legal h.depth rfl nofun fun _ => .inr (.inr rfl)

theorem execRxStart_keeps_inv {s t : State} (hs : s.Inv) (h : execRxStart s = .next t) : t.Inv := by
  rcases execRxStart_cases s with ⟨-, e⟩ | ⟨-, e⟩ <;> cases e.symm.trans h
  · exact hs.withPorts _ _
  · exact State.inv_of_rxLen_zero hs.legal hs.depth rfl (fun _ => rfl) nofun

theorem execRxByte_keeps_inv {b : Byte} {s t : State} (hs : s.Inv) (h : execRxByte b s = .next t) : t.Inv := by
  rcases execRxByte_cases b s with ⟨-, e⟩ | ⟨hst, -, e⟩ | ⟨-, -, e⟩ | ⟨hst, -, e⟩ | ⟨hst, -, e⟩ | ⟨hst, -, e⟩ | ⟨hst, hb, e⟩
    <;> cases e.symm.trans h
  · exact State.inv_of_rxLen_zero hs.legal hs.depth (hs.lenZero (by simp [hst])) (fun _ => hs.statusOk (by simp [hst])) nofun
  · exact hs.withPorts _ _
  · exact State.inv_of_rxLen_zero hs.legal hs.depth (hs.lenZero (by simp [hst])) (fun _ => hs.statusOk (by simp [hst])) nofun
  · exact State.inv_of_rxLen_zero hs.legal hs.depth (hs.lenZero (by simp [hst])) nofun fun _ => .inr (.inl rfl)
  · exact ⟨hs.legal, hs.depth, hs.lenBound, nofun, fun _ => hs.statusOk (by simp [hst]), nofun,
      fun _ => hs.noTerminator (.inl hst)⟩
  · exact (hs.appendByte hst hb).withPorts _ _

theorem execRxTimeout_keeps_inv {s t : State} (hs : s.Inv) (h : execRxTimeout s = .next t) : t.Inv := by
  rcases execRxTimeout_cases s with ⟨-, e⟩ | ⟨-, e⟩ <;> cases e.symm.trans h
  exact State.inv_of_rxLen_zero hs.legal hs.depth rfl nofun fun _ => .inl rfl

theorem execRxRead_keeps_inv {s t : State} (hs : s.Inv) (h : execRxRead s = .next t) : t.Inv := by
  rcases execRxRead_cases s with ⟨-, e⟩ | ⟨-, e⟩ | ⟨hst, e⟩ | ⟨hst, e⟩ <;> cases e.symm.trans h
  · exact hs.withPorts _ _
  · exact hs.withPorts _ _
  · exact State.inv_of_rxLen_zero hs.legal hs.depth rfl (fun _ => hs.statusOk (by simp [hst])) nofun
  · exact State.inv_of_rxLen_zero hs.legal hs.depth (hs.lenZero (by simp [hst])) (fun _ => rfl) nofun

/-- A pure operation leaves every register as it is (00_scope.md R14(c)). -/
theorem exec_pure_frame {i : Instr} (hi : isPure i = true) {s t : State} (h : exec i s = .next t) :
    ∃ r : Record, t = { s with out := some r } := by
  obtain ⟨r, hr⟩ := exec_pure_gives hi s.params
  cases (hr s rfl).symm.trans h
  exact ⟨r, rfl⟩

theorem exec_pure_keeps_inv {i : Instr} (hi : isPure i = true) {s t : State} (hs : s.Inv) (h : exec i s = .next t) : t.Inv := by
  obtain ⟨r, rfl⟩ := exec_pure_frame hi h
  exact hs.withPorts _ _

theorem exec_keeps_inv {i : Instr} {s t : State} (hs : s.Inv) (h : exec i s = .next t) : t.Inv := by
  cases i with
  | rxStart => exact execRxStart_keeps_inv hs h
  | rxByte b => exact execRxByte_keeps_inv hs h
  | rxTimeout => exact execRxTimeout_keeps_inv hs h
  | rxRead => exact execRxRead_keeps_inv hs h
  | frameEnc | bcdEnc | bcdDec | bswap | freqEnc | freqDec | timeEnc | timeDec | dateEnc | dateDec =>
    exact exec_pure_keeps_inv rfl hs h

theorem step_keeps_inv {s t : State} (hs : s.Inv) (h : step s = .next t) : t.Inv := by
  rcases step_next_cases h with ⟨-, rfl⟩ | ⟨rest, -, rfl⟩ | ⟨r, rest, op, -, -, rfl⟩ | ⟨r, rest, i, -, -, hexec⟩
  · exact hs
  · exact (hs.withPorts s.out rest).applyReset
  · exact hs.withPorts _ _
  · exact exec_keeps_inv (hs.withPorts s.out rest) hexec

/-! ### What `RX_BUF` holds at and above `RX_LEN`

Two states that differ only there run into answers that differ only there: `SameAnswers`, kept by each operation, by a step and by a
run. -/

/-- The answers of two states that cannot be told apart: next states that cannot, or the same stop. -/
inductive SameAnswers : Answer → Answer → Prop where
  | next {s t : State} (h : s.sameObservable t) : SameAnswers (.next s) (.next t)
  | fault (f : Fault) : SameAnswers (.fault f) (.fault f)
  | refused (r : Refusal) : SameAnswers (.refused r) (.refused r)

/-- The unobservable part made explicit: `t` is `s` with another buffer that agrees on the collected bytes. -/
theorem State.sameObservable_iff {s t : State} : s.sameObservable t ↔
    ∃ buf : List Byte, t = { s with rxBuf := buf } ∧ buf.length = s.rxBuf.length ∧ buf.take s.rxLen = s.rxBuf.take s.rxLen := by
  constructor
  · rintro ⟨heq, hlen, htake⟩
    have hrxLen : t.rxLen = s.rxLen := by rw [heq]
    exact ⟨t.rxBuf, heq, hlen, hrxLen ▸ htake⟩
  · rintro ⟨buf, rfl, hlen, htake⟩
    exact ⟨rfl, hlen, htake⟩

section
variable {s t : State}

theorem State.sameObservable.out_eq (h : s.sameObservable t) : t.out = s.out := by rw [h.1]

theorem State.sameObservable.rxState_eq (h : s.sameObservable t) : t.rxState = s.rxState := by rw [h.1]

theorem State.sameObservable.pending_eq (h : s.sameObservable t) : t.pending = s.pending :=
  congrArg RxState.pending h.rxState_eq

theorem State.sameObservable.inputs_eq (h : s.sameObservable t) : t.inputs = s.inputs := by rw [h.1]

theorem State.sameObservable.response_eq (h : s.sameObservable t) : t.response = s.response := by
  rw [State.response_eq, State.response_eq]
  exact h.2.2

theorem State.sameObservable.give (h : s.sameObservable t) (r : Record) : SameAnswers (s.give r) (t.give r) := by
  obtain ⟨buf, rfl, hlen, htake⟩ := State.sameObservable_iff.mp h
  exact .next ⟨rfl, hlen, htake⟩

theorem State.sameObservable.silent (h : s.sameObservable t) : SameAnswers s.silent t.silent := by
  obtain ⟨buf, rfl, hlen, htake⟩ := State.sameObservable_iff.mp h
  exact .next ⟨rfl, hlen, htake⟩

/-- An appended byte is stored at the same index of both buffers, or dropped by both. -/
theorem State.sameObservable.appendByte (h : s.sameObservable t) (b : Byte) :
    (s.appendByte b).sameObservable (t.appendByte b) := by
  obtain ⟨buf, rfl, hlen, htake⟩ := State.sameObservable_iff.mp h
  unfold State.appendByte
  split
  · refine ⟨rfl, by simp [hlen], ?_⟩
    change (buf.set s.rxLen b).take (s.rxLen + 1) = (s.rxBuf.set s.rxLen b).take (s.rxLen + 1)
    rw [take_succ_set, take_succ_set, hlen, htake]
  · exact ⟨rfl, hlen, rfl⟩

theorem exec_pure_sameAnswers {i : Instr} (hi : isPure i = true) (h : s.sameObservable t) :
    SameAnswers (exec i s) (exec i t) := by
  have hparams : t.params = s.params := by rw [h.1]
  obtain ⟨r, hr⟩ := exec_pure_gives hi s.params
  rw [hr s rfl, hr t hparams]
  exact h.give r

theorem execRxStart_sameAnswers (h : s.sameObservable t) : SameAnswers (execRxStart s) (execRxStart t) := by
  unfold execRxStart
  rw [h.pending_eq]
  split
  · exact h.give _
  · obtain ⟨buf, rfl, hlen, -⟩ := State.sameObservable_iff.mp h
    exact .next ⟨rfl, hlen, rfl⟩

theorem execRxByte_sameAnswers (b : Byte) (h : s.sameObservable t) : SameAnswers (execRxByte b s) (execRxByte b t) := by
  unfold execRxByte
  rw [h.rxState_eq]
  cases s.rxState with
  | idle | done | err => exact .fault _
  | hunt | pre2 =>
    obtain ⟨buf, rfl, hlen, htake⟩ := State.sameObservable_iff.mp h
    dsimp only
    split <;> exact .next ⟨rfl, hlen, htake⟩
  | body =>
    dsimp only
    split
    · obtain ⟨buf, rfl, hlen, htake⟩ := State.sameObservable_iff.mp h
      exact .next ⟨rfl, hlen, htake⟩
    · exact (h.appendByte b).silent

theorem execRxTimeout_sameAnswers (h : s.sameObservable t) : SameAnswers (execRxTimeout s) (execRxTimeout t) := by
  unfold execRxTimeout
  rw [h.pending_eq]
  split
  · obtain ⟨buf, rfl, hlen, -⟩ := State.sameObservable_iff.mp h
    exact .next ⟨rfl, hlen, rfl⟩
  · exact .fault _

/-- RX_READ returns the collected bytes alone, and these agree. -/
theorem execRxRead_sameAnswers (h : s.sameObservable t) : SameAnswers (execRxRead s) (execRxRead t) := by
  unfold execRxRead
  rw [h.rxState_eq, h.response_eq]
  cases s.rxState with
  | idle | hunt | pre2 | body => exact h.give _
  | done =>
    obtain ⟨buf, rfl, hlen, -⟩ := State.sameObservable_iff.mp h
    exact .next ⟨rfl, hlen, rfl⟩
  | err =>
    obtain ⟨buf, rfl, hlen, htake⟩ := State.sameObservable_iff.mp h
    exact .next ⟨rfl, hlen, htake⟩

theorem exec_sameAnswers (i : Instr) (h : s.sameObservable t) : SameAnswers (exec i s) (exec i t) := by
  cases i with
  | rxStart => exact execRxStart_sameAnswers h
  | rxByte b => exact execRxByte_sameAnswers b h
  | rxTimeout => exact execRxTimeout_sameAnswers h
  | rxRead => exact execRxRead_sameAnswers h
  | frameEnc | bcdEnc | bcdDec | bswap | freqEnc | freqDec | timeEnc | timeDec | dateEnc | dateDec =>
    exact exec_pure_sameAnswers rfl h

theorem runRequest_sameAnswers (r : Request) (h : s.sameObservable t) : SameAnswers (runRequest r s) (runRequest r t) := by
  unfold runRequest
  split
  · exact exec_sameAnswers _ h
  · exact h.give _
  all_goals exact .refused _

theorem runInput_sameAnswers (x : Input) (h : s.sameObservable t) : SameAnswers (runInput x s) (runInput x t) := by
  cases x with
  | reset =>
    obtain ⟨buf, rfl, -, -⟩ := State.sameObservable_iff.mp h
    exact .next ⟨rfl, rfl, rfl⟩
  | request r => exact runRequest_sameAnswers r h

theorem step_sameAnswers (h : s.sameObservable t) : SameAnswers (step s) (step t) := by
  unfold step runNext
  rw [h.inputs_eq]
  cases s.inputs with
  | nil => exact .next h
  | cons x rest =>
    obtain ⟨buf, rfl, hlen, htake⟩ := State.sameObservable_iff.mp h
    exact runInput_sameAnswers x ⟨rfl, hlen, htake⟩

theorem core_run_sameAnswers (k : Nat) (h : s.sameObservable t) :
    SameAnswers (Host.Core.run Sys2Proof.core k s) (Host.Core.run Sys2Proof.core k t) := by
  induction k generalizing s t with
  | zero => exact .next h
  | succ k ih =>
    have hstep := step_sameAnswers h
    generalize hs : step s = a at hstep
    generalize ht : step t = b at hstep
    cases hstep with
    | next h' =>
      rw [core_run_succ_of_next k hs, core_run_succ_of_next k ht]
      exact ih h'
    | fault f =>
      rw [core_run_succ_of_fault k hs, core_run_succ_of_fault k ht]
      exact .fault f
    | refused r =>
      rw [core_run_succ_of_refused k hs, core_run_succ_of_refused k ht]
      exact .refused r

/-- What `SameAnswers` says of each of the three outcomes. -/
theorem SameAnswers.outcomes {a b : Answer} (h : SameAnswers a b) :
    (∀ s', a = .next s' → ∃ t', b = .next t' ∧ s'.sameObservable t' ∧ t'.out = s'.out) ∧
    (∀ f, a = .fault f → b = .fault f) ∧ (∀ r, a = .refused r → b = .refused r) := by
  cases h with
  | @next s t h =>
    refine ⟨fun s' e => ?_, fun _ e => (by cases e), fun _ e => (by cases e)⟩
    cases e
    exact ⟨t, rfl, h, h.out_eq⟩
  | fault f => exact ⟨fun _ e => (by cases e), fun _ e => e, fun _ e => (by cases e)⟩
  | refused r => exact ⟨fun _ e => (by cases e), fun _ e => (by cases e), fun _ e => e⟩

end

/-! ### The writers of the receiver registers (10_state.md R28) -/

theorem execRxStart_rxBuf {s t : State} (h : execRxStart s = .next t) : t.rxBuf = s.rxBuf := by
  rcases execRxStart_cases s with ⟨-, e⟩ | ⟨-, e⟩ <;> (cases e.symm.trans h; rfl)

theorem execRxTimeout_rxBuf {s t : State} (h : execRxTimeout s = .next t) : t.rxBuf = s.rxBuf := by
  rcases execRxTimeout_cases s with ⟨-, e⟩ | ⟨-, e⟩ <;> cases e.symm.trans h
  rfl

theorem execRxRead_rxBuf {s t : State} (h : execRxRead s = .next t) : t.rxBuf = s.rxBuf := by
  rcases execRxRead_cases s with ⟨-, e⟩ | ⟨-, e⟩ | ⟨-, e⟩ | ⟨-, e⟩ <;> (cases e.symm.trans h; rfl)

/-- Outside BODY no byte is appended: RX_BYTE writes neither `RX_BUF` nor `RX_LEN`, and `RX_STATUS` only when PRE2 fails (R107). -/
theorem execRxByte_frame_of_not_body {b : Byte} {s t : State} (h : execRxByte b s = .next t) (hst : s.rxState ≠ .body) :
    t.rxBuf = s.rxBuf ∧ t.rxLen = s.rxLen ∧ (t.rxStatus ≠ s.rxStatus → s.rxState = .pre2) := by
  rcases execRxByte_cases b s with ⟨-, e⟩ | ⟨-, -, e⟩ | ⟨-, -, e⟩ | ⟨-, -, e⟩ | ⟨hpre, -, e⟩ | ⟨hbody, -, e⟩ | ⟨hbody, -, e⟩
    <;> cases e.symm.trans h
  · exact ⟨rfl, rfl, (absurd rfl ·)⟩
  · exact ⟨rfl, rfl, (absurd rfl ·)⟩
  · exact ⟨rfl, rfl, (absurd rfl ·)⟩
  · exact ⟨rfl, rfl, fun _ => hpre⟩
  · exact absurd hbody hst
  · exact absurd hbody hst

/-- In BODY, RX_BYTE writes `RX_BUF` only by appending (40_frame_codec.md R112). -/
theorem execRxByte_rxBuf_of_body {b : Byte} {s t : State} (h : execRxByte b s = .next t) (hst : s.rxState = .body) :
    t.rxBuf = s.rxBuf ∨ (b ≠ 0xFD ∧ s.rxLen < s.params.nRx ∧ t.rxBuf = s.rxBuf.set s.rxLen b) := by
  simp only [execRxByte, hst] at h
  split at h <;> cases h
  case isTrue => exact .inl rfl
  case isFalse hb =>
    rcases s.appendByte_cases b with ⟨hroom, e⟩ | ⟨-, e⟩
    · exact .inr ⟨hb, hroom, by rw [e]⟩
    · exact .inl (by rw [e])

end Sys2Proof.Machine

namespace Sys2Proof.Proofs

open Sys2Proof.Machine

/-- Settles O18, by the relation `SameAnswers`, which every step and so every run keeps. -/
theorem bufferBeyondLenUnobservable : Obligations.BufferBeyondLenUnobservable :=
  fun k _ _ h => (core_run_sameAnswers k h).outcomes

/-- Settles O53, by the cases of a step. -/
theorem stepKeepsInvariants : Obligations.StepKeepsInvariants := fun _ _ hs h => step_keeps_inv hs h

/-- Settles O52. -/
theorem resetMeetsInvariants : Obligations.ResetMeetsInvariants := State.inv_reset

/-- Settles O54: reset meets the invariants with anything presented, and every step keeps them. -/
theorem reachableStatesMeetInvariants : Obligations.ReachableStatesMeetInvariants := by
  intro ins k t h
  have hinv : t.Inv := core_run_keeps (fun _ _ => step_keeps_inv) k (State.inv_reset.withPorts none ins) h
  exact ⟨hinv.lenBound, hinv.lenZero, hinv.statusOk, hinv.statusErr, hinv.noTerminator⟩

/-- Settles O25, by the operation: the pure ones write no register, and of the receiver's only RX_BYTE in BODY writes `RX_BUF`. -/
theorem receiverRegisterWriters : Obligations.ReceiverRegisterWriters := by
  intro s t i h
  cases i with
  | rxStart => exact ⟨fun hne => absurd (execRxStart_rxBuf h) hne, fun _ => by simp, fun _ => by simp, fun _ => by simp⟩
  | rxTimeout => exact ⟨fun hne => absurd (execRxTimeout_rxBuf h) hne, fun _ => by simp, fun _ => by simp, fun _ => by simp⟩
  | rxRead => exact ⟨fun hne => absurd (execRxRead_rxBuf h) hne, fun _ => by simp, fun _ => by simp, fun _ => by simp⟩
  | rxByte b =>
    by_cases hst : s.rxState = .body
    · refine ⟨fun hne => ?_, fun _ => by simp [hst], fun _ => by simp [hst], fun _ => by simp⟩
      obtain ⟨hb, hroom, hbuf⟩ := (execRxByte_rxBuf_of_body h hst).resolve_left hne
      exact ⟨b, rfl, hb, hst, hroom, hbuf⟩
    · obtain ⟨hbuf, hlen, hstatus⟩ := execRxByte_frame_of_not_body h hst
      exact ⟨fun hne => absurd hbuf hne, fun hne => absurd hlen hne, fun hne => by simp [hstatus hne], fun _ => by simp⟩
  | frameEnc | bcdEnc | bcdDec | bswap | freqEnc | freqDec | timeEnc | timeDec | dateEnc | dateDec =>
    obtain ⟨r, rfl⟩ := exec_pure_frame rfl h
    exact ⟨(absurd rfl ·), (absurd rfl ·), (absurd rfl ·), (absurd rfl ·)⟩

/-- Settles O51: with `RX_LEN` 0, no byte of `RX_BUF` is among the collected ones. -/
theorem resetStateValues : Obligations.ResetStateValues := by
  refine ⟨rfl, rfl, rfl, rfl, rfl, fun buf hbuf => ?_⟩
  have hdepth : State.reset.rxBuf.length = State.reset.params.nRx := State.inv_reset.depth
  exact ⟨rfl, hbuf.trans hdepth.symm, rfl⟩

end Sys2Proof.Proofs
end

