-- ==== Sys2Proof/Proofs/Memory.lean ====
section
/-! The family 20_memory.md: the pure operations may be repeated (R59), and the steps are totally ordered (R62), so that a run over
presented operations is their meanings in that order. -/

namespace Sys2Proof

/-- The operand ports that the encoder writes read back as the operation they carry (30_encoding.md R81). -/
theorem decodePorts_operandPorts {i : Instr} (h : i.wf = true) : decodePorts i.opcode (operandPorts i) = .ok i := by
  cases i with
  | frameEnc cmd hasSub sub payload => exact Laws.PortsReadBack.frameEnc cmd hasSub sub payload h
  | rxStart => exact Laws.PortsReadBack.rxStart h
  | rxByte b => exact Laws.PortsReadBack.rxByte b h
  | rxTimeout => exact Laws.PortsReadBack.rxTimeout h
  | rxRead => exact Laws.PortsReadBack.rxRead h
  | bcdEnc v => exact Laws.PortsReadBack.bcdEnc v h
  | bcdDec b => exact Laws.PortsReadBack.bcdDec b h
  | bswap d => exact Laws.PortsReadBack.bswap d h
  | freqEnc hz => exact Laws.PortsReadBack.freqEnc hz h
  | freqDec resp => exact Laws.PortsReadBack.freqDec resp h
  | timeEnc hour minute => exact Laws.PortsReadBack.timeEnc hour minute h
  | timeDec resp => exact Laws.PortsReadBack.timeDec resp h
  | dateEnc year month day => exact Laws.PortsReadBack.dateEnc year month day h
  | dateDec resp => exact Laws.PortsReadBack.dateDec resp h

theorem decode_encode {i : Instr} (h : i.wf = true) : decode (encode i) = .ok i := by
  rw [encode, decode, if_pos i.opcode.code_lt, Opcode.ofCode_code]
  exact decodePorts_operandPorts h

end Sys2Proof

namespace Sys2Proof.Machine

/-! ### No operation reads or writes what is presented next -/

/-- An answer whose next state, if it has one, has `ins` presented to it. -/
def withInputs (ins : List Input) : Answer → Answer
  | .next t => .next { t with inputs := ins }
  | .fault f => .fault f
  | .refused r => .refused r

theorem State.appendByte_withInputs (s : State) (b : Byte) (ins : List Input) :
    State.appendByte { s with inputs := ins } b = { s.appendByte b with inputs := ins } := by
  by_cases hroom : s.rxLen < s.params.nRx <;> simp [State.appendByte, State.memWrite, hroom]

theorem execRxStart_withInputs (s : State) (ins : List Input) :
    execRxStart { s with inputs := ins } = withInputs ins (execRxStart s) := by
  obtain ⟨p, st, n, e, buf, o, queued, k⟩ := s
  cases st <;> rfl

theorem execRxByte_withInputs (b : Byte) (s : State) (ins : List Input) :
    execRxByte b { s with inputs := ins } = withInputs ins (execRxByte b s) := by
  obtain ⟨p, st, n, e, buf, o, queued, k⟩ := s
  cases st with
  | idle | done | err => rfl
  | hunt | pre2 =>
    simp only [execRxByte]
    split <;> rfl
  | body =>
    have happend := State.appendByte_withInputs ⟨p, .body, n, e, buf, o, queued, k⟩ b ins
    simp only [execRxByte, happend]
    split <;> rfl

theorem execRxTimeout_withInputs (s : State) (ins : List Input) :
    execRxTimeout { s with inputs := ins } = withInputs ins (execRxTimeout s) := by
  obtain ⟨p, st, n, e, buf, o, queued, k⟩ := s
  cases st <;> rfl

theorem execRxRead_withInputs (s : State) (ins : List Input) :
    execRxRead { s with inputs := ins } = withInputs ins (execRxRead s) := by
  obtain ⟨p, st, n, e, buf, o, queued, k⟩ := s
  cases st <;> rfl

theorem exec_pure_withInputs {i : Instr} (hi : isPure i = true) (s : State) (ins : List Input) :
    exec i { s with inputs := ins } = withInputs ins (exec i s) := by
  obtain ⟨r, hr⟩ := exec_pure_gives hi s.params
  rw [hr s rfl, hr { s with inputs := ins } rfl]
  rfl

/-- An operation answers the same whatever is presented after it, and leaves that presented. -/
theorem exec_withInputs (i : Instr) (s : State) (ins : List Input) :
    exec i { s with inputs := ins } = withInputs ins (exec i s) := by
  cases i with
  | rxStart => exact execRxStart_withInputs s ins
  | rxByte b => exact execRxByte_withInputs b s ins
  | rxTimeout => exact execRxTimeout_withInputs s ins
  | rxRead => exact execRxRead_withInputs s ins
  | frameEnc | bcdEnc | bcdDec | bswap | freqEnc | freqDec | timeEnc | timeDec | dateEnc | dateDec =>
    exact exec_pure_withInputs rfl s ins

/-! ### Presented operations -/

/-- A step takes the first presented operation and runs it (30_encoding.md R80). -/
theorem step_presenting_cons {i : Instr} (hi : i.wf = true) (is : List Instr) (s : State) :
    step { s with inputs := presenting (i :: is) } = exec i { s with inputs := presenting is } := by
  change runRequest (encode i) { s with inputs := presenting is } = _
  rw [runRequest, decode_encode hi]

end Sys2Proof.Machine

namespace Sys2Proof.Proofs

open Sys2Proof.Machine

/-- Settles O56: the record of a pure operation depends on the parameters alone, which giving a record does not change. -/
theorem pureOperationsRepeatable : Obligations.PureOperationsRepeatable := by
  intro i hi s t hparams
  obtain ⟨r, hr⟩ := exec_pure_gives hi s.params
  exact ⟨r, hr s rfl, hr t hparams, hr { s with out := some r } rfl⟩

/-- Settles O60, by induction on the operations: the first step runs the first of them, and what is presented after it changes
nothing of its answer. -/
theorem runOfPresentedOperations : Obligations.RunOfPresentedOperations := by
  intro is
  induction is with
  | nil => exact fun s _ => core_run_zero { s with inputs := [] }
  | cons i is ih =>
    intro s hwf
    obtain ⟨hi, his⟩ := List.forall_mem_cons.mp hwf
    have hstep := (step_presenting_cons hi is s).trans (exec_withInputs i s _)
    have hexec := exec_withInputs i s []
    simp only [List.length_cons, runAll]
    cases hs : exec i s with
    | next t =>
      rw [hs] at hstep hexec
      rw [core_run_succ_of_next _ hstep, hexec]
      exact ih t his
    | fault f =>
      rw [hs] at hstep hexec
      rw [core_run_succ_of_fault _ hstep, hexec]
      rfl
    | refused r =>
      rw [hs] at hstep hexec
      rw [core_run_succ_of_refused _ hstep, hexec]
      rfl

end Sys2Proof.Proofs
end

