-- ==== Sys2Proof/Proofs/Encoding.lean ====
section
/-! The family 30_encoding.md: the request form (R80 to R83), the BCD bytes and what an operation's record can be (R75, R79, R82), the
layout of a frame (R70), and the pseudo-instructions (R85). -/

namespace Sys2Proof

/-! ### What decodes -/

theorem bind_eq_ok {ε α β : Type} {x : Except ε α} {f : α → Except ε β} {b : β} :
    x >>= f = .ok b ↔ ∃ a, x = .ok a ∧ f a = .ok b := by
  cases x <;> simp [bind, Except.bind]

theorem pure_eq_ok {ε α : Type} {a b : α} : (pure a : Except ε α) = .ok b ↔ a = b := by
  simp [pure, Except.pure]

/-- Everything the operand ports can read as: an operation of the selected row that fits its ports, from the values written for it
(30_encoding.md R81). -/
theorem decodePorts_ok {op : Opcode} {ports : List Nat} {i : Instr} (h : decodePorts op ports = .ok i) :
    i.opcode = op ∧ i.wf = true ∧ operandPorts i = ports := by
  cases op with
  | rxStart | rxTimeout | rxRead =>
    simp only [decodePorts] at h
    split at h <;> cases h
    exact ⟨rfl, rfl, rfl⟩
  | rxByte | bcdEnc | bcdDec | freqEnc =>
    simp only [decodePorts] at h
    split at h
    · simp only [bind_eq_ok, pure_eq_ok, readPort_ok] at h
      obtain ⟨v, rfl, rfl⟩ := h
      exact ⟨rfl, rfl, rfl⟩
    · cases h
  | timeEnc =>
    simp only [decodePorts] at h
    split at h
    · simp only [bind_eq_ok, pure_eq_ok, readPort_ok] at h
      obtain ⟨hour, rfl, minute, rfl, rfl⟩ := h
      exact ⟨rfl, rfl, rfl⟩
    · cases h
  | dateEnc =>
    simp only [decodePorts] at h
    split at h
    · simp only [bind_eq_ok, pure_eq_ok, readPort_ok] at h
      obtain ⟨year, rfl, month, rfl, day, rfl, rfl⟩ := h
      exact ⟨rfl, rfl, rfl⟩
    · cases h
  | freqDec | timeDec | dateDec =>
    simp only [decodePorts] at h
    split at h
    · simp only [bind_eq_ok, pure_eq_ok] at h
      obtain ⟨resp, hread, rfl⟩ := h
      obtain ⟨rfl, rfl⟩ := readCounted_ok hread
      exact ⟨rfl, rfl, rfl⟩
    · cases h
  | bswap =>
    simp only [decodePorts] at h
    split at h
    · simp only [bind_eq_ok, pure_eq_ok, readPort_ok] at h
      obtain ⟨n, rfl, d, hread, rfl⟩ := h
      obtain ⟨rfl, hlen⟩ := readCounted_ok hread
      exact ⟨rfl, decide_eq_true (hlen ▸ n.isLt), by rw [operandPorts, hlen]⟩
    · cases h
  | frameEnc =>
    simp only [decodePorts] at h
    split at h
    · simp only [bind_eq_ok, pure_eq_ok, readPort_ok, readBit_ok] at h
      obtain ⟨cmd, rfl, hasSub, rfl, sub, rfl, plen, rfl, payload, hread, rfl⟩ := h
      obtain ⟨rfl, hlen⟩ := readCounted_ok hread
      exact ⟨rfl, decide_eq_true (hlen ▸ plen.isLt), by rw [operandPorts, hlen]⟩
    · cases h

theorem encode_of_decode {r : Request} {i : Instr} (h : decode r = .ok i) : i.wf = true ∧ encode i = r := by
  cases r with
  | nil => cases h
  | cons op ports =>
    simp only [decode] at h
    split at h
    · split at h
      · rename_i o ho
        obtain ⟨hop, hwf, hports⟩ := decodePorts_ok h
        exact ⟨hwf, by rw [encode, hop, hports, Opcode.code_of_ofCode ho]⟩
      · cases h
    · cases h

/-- A value that is no row's selector selects none (30_encoding.md R83). -/
theorem Opcode.ofCode_eq_none {v : Nat} (h : ∀ o : Opcode, o.code ≠ v) : Opcode.ofCode v = none := by
  simp [Opcode.ofCode, h]

theorem decode_reserved {op : Nat} (hop : op < 2 ^ 8) (h : ∀ o : Opcode, o.code ≠ op) (ports : List Nat) :
    decode (op :: ports) = .error (.reservedOp op) := by
  rw [decode, if_pos hop, Opcode.ofCode_eq_none h]

end Sys2Proof

namespace Sys2Proof.Machine

/-! ### The step of a presented request -/

theorem step_of_inputs {s : State} {x : Input} {rest : List Input} (h : s.inputs = x :: rest) :
    step s = runInput x { s with inputs := rest } := by
  rw [step, runNext, h]

theorem runRequest_of_decode {r : Request} {i : Instr} (h : decode r = .ok i) (s : State) : runRequest r s = exec i s := by
  rw [runRequest, h]

theorem runRequest_of_reserved {r : Request} {op : Nat} (h : decode r = .error (.reservedOp op)) (s : State) :
    runRequest r s = s.raise .illop := by
  rw [runRequest, h]

/-! ### BCD bytes and the tail of a response -/

theorem isBcd_eq_false_iff (b : Byte) : isBcd b = false ↔ 0xA ≤ b.toNat / 16 ∨ 0xA ≤ b.toNat % 16 := by
  rw [← Bool.not_eq_true, isBcd_iff]
  omega

theorem isBcd_bcdByte {v : Nat} (hv : v ≤ 99) : isBcd (bcdByte v) = true := by
  rw [isBcd_iff, bcdByte_toNat hv]
  omega

theorem bcdValue_bcdByte {v : Nat} (hv : v ≤ 99) : bcdValue (bcdByte v) = v := by
  rw [bcdValue_eq, bcdByte_toNat hv]
  omega

theorem toNat_le_of_isBcd {b : Byte} (h : isBcd b = true) : b.toNat ≤ 0x99 := by
  obtain ⟨htens, hunits⟩ := (isBcd_iff b).mp h
  omega

/-- No BCD byte is a delimiter (30_encoding.md R79). -/
theorem ne_delimiter_of_isBcd {b : Byte} (h : isBcd b = true) : b ≠ 0xFD ∧ b ≠ 0xFE := by
  have hle := toNat_le_of_isBcd h
  constructor <;> (rintro rfl; exact absurd hle (by decide))

/-- A field decoder reads the last bytes, whatever stands before them (43_field_codec.md R210, R214). -/
theorem decodeTail_append {k : Nat} {t : List Byte} (hk : t.length = k) (p : List Byte) (s : State)
    (read : List Byte → Results) :
    decodeTail k (p ++ t) s read =
      if t.all isBcd then .next { s with out := some (.ok (read t)) } else .next { s with out := some (.raised .badBcd) } := by
  subst hk
  have hlen : ¬ (p ++ t).length < t.length := by simp
  rw [decodeTail, if_neg hlen, tailBytes_append]
  rfl

theorem decodeTail_raises_badBcd {b : Byte} (hb : isBcd b = false) {k : Nat} {t : List Byte} (hbt : b ∈ t)
    (hk : t.length = k) (p : List Byte) (s : State) (read : List Byte → Results) :
    decodeTail k (p ++ t) s read = .next { s with out := some (.raised .badBcd) } := by
  have hall : ¬ t.all isBcd = true := fun h => by simp [List.all_eq_true.mp h b hbt] at hb
  rw [decodeTail_append hk, if_neg hall]

/-! ### The frequency field -/

theorem freqBytes_length (hz : Nat) : (freqBytes hz).length = 5 := by simp [freqBytes]

theorem isBcd_of_mem_freqBytes {hz : Nat} {b : Byte} (h : b ∈ freqBytes hz) : isBcd b = true := by
  obtain ⟨i, -, rfl⟩ := List.mem_map.mp h
  exact isBcd_bcdByte (Nat.le_of_lt_succ (Nat.mod_lt _ (by decide)))

/-- The first `k` base-100 digits of a number, least significant first, are its remainder by `100^k` (30_encoding.md R76). -/
theorem freqValue_digits (k n : Nat) :
    freqValue ((List.range k).map fun i => bcdByte (n / 100 ^ i % 100)) = n % 100 ^ k := by
  induction k generalizing n with
  | zero => simp [freqValue, Nat.mod_one]
  | succ k ih =>
    have hdigit : n % 100 ≤ 99 := Nat.le_of_lt_succ (Nat.mod_lt n (by decide))
    have hrest : ∀ i, n / 100 ^ (i + 1) = n / 100 / 100 ^ i := fun i => by rw [Nat.div_div_eq_div_mul, pow_succ']
    rw [List.range_succ_eq_map, List.map_cons, List.map_map, freqValue, pow_zero, Nat.div_one, bcdValue_bcdByte hdigit,
      pow_succ', Nat.mod_mul, ← ih (n / 100)]
    simp only [Function.comp_def, Nat.succ_eq_add_one, hrest]

theorem freqValue_freqBytes {hz : Nat} (h : hz < 10 ^ 10) : freqValue (freqBytes hz) = hz := by
  rw [freqBytes, freqValue_digits]
  exact Nat.mod_eq_of_lt h

/-- FREQ_DEC takes FREQ_ENC back, whatever stands before the field (43_field_codec.md R182). -/
theorem exec_freqDec_freqBytes {hz : BitVec 34} (h : hz.toNat < 10 ^ 10) (p : List Byte) (s : State) :
    exec (.freqDec (p ++ freqBytes hz.toNat)) s = .next { s with out := some (.ok (.hz hz)) } := by
  have hbcd : (freqBytes hz.toNat).all isBcd = true := List.all_eq_true.mpr fun _ => isBcd_of_mem_freqBytes
  have hval : freqResults (freqBytes hz.toNat) = .hz hz := by
    rw [freqResults, freqValue_freqBytes h, BitVec.ofNat_toNat, BitVec.setWidth_eq]
  change decodeTail 5 _ s freqResults = _
  rw [decodeTail_append (freqBytes_length _), if_pos hbcd, hval]

/-! ### Everything each pure operation can answer -/

/-- Everything FRAME_ENC can do (40_frame_codec.md R100). -/
theorem execFrameEnc_cases (cmd : Byte) (hasSub : Bool) (sub : Byte) (payload : List Byte) (s : State) :
    (payload.length ≤ s.params.pMax ∧ execFrameEnc cmd hasSub sub payload s =
      .next { s with out := some (.ok (.frame (frameBytes s.params cmd hasSub sub payload))) }) ∨
    (s.params.pMax < payload.length ∧ execFrameEnc cmd hasSub sub payload s = .next { s with out := some (.raised .len) }) := by
  by_cases h : s.params.pMax < payload.length
  · exact .inr ⟨h, if_pos h⟩
  · exact .inl ⟨Nat.le_of_not_lt h, if_neg h⟩

/-- Everything BCD_ENC can do (41_bcd_codec.md R140). -/
theorem execBcdEnc_cases (v : BitVec 8) (s : State) :
    (v.toNat ≤ 99 ∧ execBcdEnc v s = .next { s with out := some (.ok (.bcdByte (bcdByte v.toNat))) }) ∨
    (99 < v.toNat ∧ execBcdEnc v s = .next { s with out := some (.raised .range) }) := by
  by_cases h : 99 < v.toNat
  · exact .inr ⟨h, if_pos h⟩
  · exact .inl ⟨Nat.le_of_not_lt h, if_neg h⟩

/-- Everything BCD_DEC can do (41_bcd_codec.md R141). -/
theorem execBcdDec_cases (b : Byte) (s : State) :
    (isBcd b = true ∧ execBcdDec b s = .next { s with out := some (.ok (.value (BitVec.ofNat 8 (bcdValue b)))) }) ∨
    (isBcd b = false ∧ execBcdDec b s = .next { s with out := some (.raised .badBcd) }) := by
  cases h : isBcd b
  · exact .inr ⟨rfl, if_neg (by simp [h])⟩
  · exact .inl ⟨rfl, if_pos h⟩

/-- Everything BSWAP can do (42_byte_swap.md R160). -/
theorem execBswap_cases (d : List Byte) (s : State) :
    (1 ≤ d.length ∧ d.length ≤ 5 ∧ execBswap d s = .next { s with out := some (.ok (.swapped d.reverse)) }) ∨
    ((d.length < 1 ∨ 5 < d.length) ∧ execBswap d s = .next { s with out := some (.raised .len) }) := by
  by_cases h : d.length < 1 ∨ 5 < d.length
  · exact .inr ⟨h, if_pos h⟩
  · exact .inl ⟨by omega, by omega, if_neg h⟩

/-- Everything FREQ_ENC can do (43_field_codec.md R180). -/
theorem execFreqEnc_cases (hz : BitVec 34) (s : State) :
    (hz.toNat < 10 ^ 10 ∧ execFreqEnc hz s = .next { s with out := some (.ok (.freqField (freqBytes hz.toNat))) }) ∨
    (10 ^ 10 ≤ hz.toNat ∧ execFreqEnc hz s = .next { s with out := some (.raised .range) }) := by
  by_cases h : 10 ^ 10 ≤ hz.toNat
  · exact .inr ⟨h, if_pos h⟩
  · exact .inl ⟨Nat.lt_of_not_le h, if_neg h⟩

/-- Everything TIME_ENC can do (43_field_codec.md R190). -/
theorem execTimeEnc_cases (hour minute : BitVec 8) (s : State) :
    ((23 < hour.toNat ∨ 59 < minute.toNat) ∧ execTimeEnc hour minute s = .next { s with out := some (.raised .range) }) ∨
    (hour.toNat ≤ 23 ∧ minute.toNat ≤ 59 ∧ s.params.timePad = false ∧ (hour.toNat ≤ 9 ∨ minute.toNat ≤ 9) ∧
      execTimeEnc hour minute s = .next { s with out := some (.raised .digit) }) ∨
    (hour.toNat ≤ 23 ∧ minute.toNat ≤ 59 ∧ (s.params.timePad = true ∨ 10 ≤ hour.toNat ∧ 10 ≤ minute.toNat) ∧
      execTimeEnc hour minute s =
        .next { s with out := some (.ok (.timeField [bcdByte hour.toNat, bcdByte minute.toNat])) }) := by
  simp only [execTimeEnc, State.give_eq, timeEncRecord]
  by_cases hrange : 23 < hour.toNat ∨ 59 < minute.toNat
  · exact .inl ⟨hrange, by rw [if_pos hrange]⟩
  · by_cases hgap : s.params.timePad = false ∧ (hour.toNat ≤ 9 ∨ minute.toNat ≤ 9)
    · exact .inr (.inl ⟨by omega, by omega, hgap.1, hgap.2, by rw [if_neg hrange, if_pos hgap]⟩)
    · refine .inr (.inr ⟨by omega, by omega, ?_, by rw [if_neg hrange, if_neg hgap]⟩)
      cases hpad : s.params.timePad
      · exact .inr (by simp only [hpad, true_and] at hgap; omega)
      · exact .inl rfl

/-- Everything DATE_ENC can do (43_field_codec.md R200). -/
theorem execDateEnc_cases (year : BitVec 14) (month day : BitVec 8) (s : State) :
    ((year.toNat < 1000 ∨ 9999 < year.toNat ∨ month.toNat < 1 ∨ 12 < month.toNat ∨ day.toNat < 1 ∨ 31 < day.toNat) ∧
      execDateEnc year month day s = .next { s with out := some (.raised .range) }) ∨
    ((1000 ≤ year.toNat ∧ year.toNat ≤ 9999 ∧ 1 ≤ month.toNat ∧ month.toNat ≤ 12 ∧ 1 ≤ day.toNat ∧ day.toNat ≤ 31) ∧
      execDateEnc year month day s = .next { s with out := some (.ok (.dateField
        [bcdByte (year.toNat / 100), bcdByte (year.toNat % 100), bcdByte month.toNat, bcdByte day.toNat])) }) := by
  by_cases hyear : year.toNat < 1000 ∨ 9999 < year.toNat
  · exact .inl ⟨by omega, if_pos hyear⟩
  by_cases hmonth : month.toNat < 1 ∨ 12 < month.toNat
  · exact .inl ⟨by omega, (if_neg hyear).trans (if_pos hmonth)⟩
  by_cases hday : day.toNat < 1 ∨ 31 < day.toNat
  · exact .inl ⟨by omega, (if_neg hyear).trans ((if_neg hmonth).trans (if_pos hday))⟩
  · exact .inr ⟨by omega, (if_neg hyear).trans ((if_neg hmonth).trans (if_neg hday))⟩

/-! ### What a record carries -/

/-- A pure operation's record is no raised OK: `raise` always names another status (30_encoding.md R82). -/
theorem exec_pure_record {i : Instr} (hi : isPure i = true) (s : State) :
    ∃ r : Record, exec i s = .next { s with out := some r } ∧ r ≠ .raised .ok := by
  cases i with
  | rxStart | rxByte | rxTimeout | rxRead => cases hi
  | frameEnc cmd hasSub sub payload =>
    rcases execFrameEnc_cases cmd hasSub sub payload s with ⟨-, h⟩ | ⟨-, h⟩ <;> exact ⟨_, h, nofun⟩
  | bcdEnc v => rcases execBcdEnc_cases v s with ⟨-, h⟩ | ⟨-, h⟩ <;> exact ⟨_, h, nofun⟩
  | bcdDec b => rcases execBcdDec_cases b s with ⟨-, h⟩ | ⟨-, h⟩ <;> exact ⟨_, h, nofun⟩
  | bswap d => rcases execBswap_cases d s with ⟨-, -, h⟩ | ⟨-, h⟩ <;> exact ⟨_, h, nofun⟩
  | freqEnc hz => rcases execFreqEnc_cases hz s with ⟨-, h⟩ | ⟨-, h⟩ <;> exact ⟨_, h, nofun⟩
  | timeEnc hour minute =>
    rcases execTimeEnc_cases hour minute s with ⟨-, h⟩ | ⟨-, -, -, -, h⟩ | ⟨-, -, -, h⟩ <;> exact ⟨_, h, nofun⟩
  | dateEnc year month day => rcases execDateEnc_cases year month day s with ⟨-, h⟩ | ⟨-, h⟩ <;> exact ⟨_, h, nofun⟩
  | freqDec resp | timeDec resp | dateDec resp =>
    rcases decodeTail_cases _ resp s _ with ⟨-, h⟩ | ⟨-, -, h⟩ | ⟨-, -, h⟩ <;> exact ⟨_, h, nofun⟩

/-- RX_READ raises the held status, which the invariants say is not OK in ERR (10_state.md R30 (d)). -/
theorem execRxRead_record (s : State) :
    ∃ (t : State) (r : Record), execRxRead s = .next t ∧ t.out = some r ∧ (s.Inv → r ≠ .raised .ok) := by
  rcases execRxRead_cases s with ⟨-, h⟩ | ⟨-, h⟩ | ⟨-, h⟩ | ⟨herr, h⟩
  case inr.inr.inr =>
    refine ⟨_, _, h, rfl, fun hinv hok => ?_⟩
    rcases hinv.statusErr herr with hst | hst | hst <;> simp [hst] at hok
  all_goals exact ⟨_, _, h, rfl, fun _ => nofun⟩

theorem execRxStart_record (s : State) :
    ∃ (t : State) (r : Record), execRxStart s = .next t ∧ t.out = some r ∧ r ≠ .raised .ok := by
  rcases execRxStart_cases s with ⟨-, h⟩ | ⟨-, h⟩ <;> exact ⟨_, _, h, rfl, nofun⟩

theorem exec_host_record {i : Instr} (hi : i.opcode.issuedBy = .host) (s : State) :
    ∃ (t : State) (r : Record), exec i s = .next t ∧ t.out = some r ∧ (s.Inv → r ≠ .raised .ok) := by
  by_cases hp : isPure i = true
  · obtain ⟨r, h, hr⟩ := exec_pure_record hp s
    exact ⟨_, r, h, rfl, fun _ => hr⟩
  · cases i with
    | rxByte | rxTimeout => cases hi
    | rxRead => exact execRxRead_record s
    | rxStart =>
      obtain ⟨t, r, h, hout, hr⟩ := execRxStart_record s
      exact ⟨t, r, h, hout, fun _ => hr⟩
    | frameEnc | bcdEnc | bcdDec | bswap | freqEnc | freqDec | timeEnc | timeDec | dateEnc | dateDec => exact absurd rfl hp

theorem Record.status_ok_iff {r : Record} (h : r ≠ .raised .ok) : r.status = .ok ↔ r.results.isSome = true := by
  cases r with
  | ok results => simp [Record.status, Record.results]
  | raised st => simpa [Record.status, Record.results] using h

theorem execRxByte_out {b : Byte} {s t : State} (h : execRxByte b s = .next t) : t.out = none := by
  rcases execRxByte_cases b s with ⟨-, e⟩ | ⟨-, -, e⟩ | ⟨-, -, e⟩ | ⟨-, -, e⟩ | ⟨-, -, e⟩ | ⟨-, -, e⟩ | ⟨-, -, e⟩
    <;> cases e.symm.trans h <;> rfl

theorem execRxTimeout_out {s t : State} (h : execRxTimeout s = .next t) : t.out = none := by
  rcases execRxTimeout_cases s with ⟨-, e⟩ | ⟨-, e⟩ <;> cases e.symm.trans h
  rfl

theorem exec_transport_out {i : Instr} (hi : i.opcode.issuedBy = .transport) {s t : State} (h : exec i s = .next t) :
    t.out = none := by
  cases i with
  | rxByte b => exact execRxByte_out h
  | rxTimeout => exact execRxTimeout_out h
  | rxStart | rxRead | frameEnc | bcdEnc | bcdDec | bswap | freqEnc | freqDec | timeEnc | timeDec | dateEnc | dateDec => cases hi

/-! ### The field encoders and the `SEND_` forms -/

/-- A field encoder raises a status or carries a field of BCD bytes (43_field_codec.md R180, R190, R200). -/
theorem exec_encoder_record {i : Instr} (hi : i.opcode = .freqEnc ∨ i.opcode = .timeEnc ∨ i.opcode = .dateEnc) (s : State) :
    ∃ r : Record, exec i s = .next { s with out := some r } ∧
      ((∃ st, r = .raised st) ∨ ∃ f, fieldOf (some r) = some f ∧ ∀ b ∈ f, isBcd b = true) := by
  cases i with
  | freqEnc hz =>
    rcases execFreqEnc_cases hz s with ⟨-, h⟩ | ⟨-, h⟩
    · exact ⟨_, h, .inr ⟨_, rfl, fun _ => isBcd_of_mem_freqBytes⟩⟩
    · exact ⟨_, h, .inl ⟨_, rfl⟩⟩
  | timeEnc hour minute =>
    rcases execTimeEnc_cases hour minute s with ⟨-, h⟩ | ⟨-, -, -, -, h⟩ | ⟨hhour, hminute, -, h⟩
    · exact ⟨_, h, .inl ⟨_, rfl⟩⟩
    · exact ⟨_, h, .inl ⟨_, rfl⟩⟩
    · exact ⟨_, h, .inr ⟨_, rfl, by simp (disch := omega) [isBcd_bcdByte]⟩⟩
  | dateEnc year month day =>
    rcases execDateEnc_cases year month day s with ⟨-, h⟩ | ⟨⟨-, hyear, -, hmonth, -, hday⟩, h⟩
    · exact ⟨_, h, .inl ⟨_, rfl⟩⟩
    · exact ⟨_, h, .inr ⟨_, rfl, by simp (disch := omega) [isBcd_bcdByte]⟩⟩
  | _ => simp [Instr.opcode] at hi

/-- No operation but the field encoders carries a field. -/
theorem fieldOf_exec_of_not_encoder {i : Instr} (hi : ¬ (i.opcode = .freqEnc ∨ i.opcode = .timeEnc ∨ i.opcode = .dateEnc))
    {s t : State} (h : exec i s = .next t) : fieldOf t.out = none := by
  cases i with
  | freqEnc | timeEnc | dateEnc => simp [Instr.opcode] at hi
  | rxByte b => rw [execRxByte_out h]; rfl
  | rxTimeout => rw [execRxTimeout_out h]; rfl
  | rxStart => rcases execRxStart_cases s with ⟨-, e⟩ | ⟨-, e⟩ <;> cases e.symm.trans h <;> rfl
  | rxRead => rcases execRxRead_cases s with ⟨-, e⟩ | ⟨-, e⟩ | ⟨-, e⟩ | ⟨-, e⟩ <;> cases e.symm.trans h <;> rfl
  | frameEnc cmd hasSub sub payload =>
    rcases execFrameEnc_cases cmd hasSub sub payload s with ⟨-, e⟩ | ⟨-, e⟩ <;> cases e.symm.trans h <;> rfl
  | bcdEnc v => rcases execBcdEnc_cases v s with ⟨-, e⟩ | ⟨-, e⟩ <;> cases e.symm.trans h <;> rfl
  | bcdDec b => rcases execBcdDec_cases b s with ⟨-, e⟩ | ⟨-, e⟩ <;> cases e.symm.trans h <;> rfl
  | bswap d => rcases execBswap_cases d s with ⟨-, -, e⟩ | ⟨-, e⟩ <;> cases e.symm.trans h <;> rfl
  | freqDec resp | timeDec resp | dateDec resp =>
    rcases decodeTail_cases _ resp s _ with ⟨-, e⟩ | ⟨-, -, e⟩ | ⟨-, -, e⟩ <;> cases e.symm.trans h <;> rfl

theorem isBcd_of_mem_fieldOf {i : Instr} {s t : State} {f : List Byte} (h : exec i s = .next t) (hf : fieldOf t.out = some f) :
    ∀ b ∈ f, isBcd b = true := by
  by_cases hi : i.opcode = .freqEnc ∨ i.opcode = .timeEnc ∨ i.opcode = .dateEnc
  · obtain ⟨r, e, ⟨st, rfl⟩ | ⟨g, hg, hbcd⟩⟩ := exec_encoder_record hi s <;> cases e.symm.trans h
    · cases hf
    · cases hg.symm.trans hf
      exact hbcd
  · cases (fieldOf_exec_of_not_encoder hi h).symm.trans hf

theorem sendField_of_no_field {enc : Instr} {s t : State} (h : exec enc s = .next t) (hf : fieldOf t.out = none)
    (cmd : Byte) (hasSub : Bool) (sub : Byte) : sendField enc cmd hasSub sub s = .next t := by
  simp only [sendField, h, hf]

theorem sendField_of_field {enc : Instr} {s t : State} {f : List Byte} (h : exec enc s = .next t) (hf : fieldOf t.out = some f)
    (cmd : Byte) (hasSub : Bool) (sub : Byte) : sendField enc cmd hasSub sub s = exec (.frameEnc cmd hasSub sub f) t := by
  simp only [sendField, h, hf]

/-- A pure operation does not read the result ports (20_memory.md R59(c)). -/
theorem exec_pure_withOut {i : Instr} (hi : isPure i = true) (s : State) (out : Option Record) :
    exec i { s with out := out } = exec i s := by
  obtain ⟨r, hr⟩ := exec_pure_gives hi s.params
  rw [hr s rfl, hr { s with out := out } rfl]
  rfl

/-! ### Runs of operations -/

theorem runAll_cons_of_next {i : Instr} {s t : State} (h : exec i s = .next t) (is : List Instr) :
    runAll (i :: is) s = runAll is t := by
  simp only [runAll, h]

theorem runAll_cons_of_fault {i : Instr} {s : State} {f : Fault} (h : exec i s = .fault f) (is : List Instr) :
    runAll (i :: is) s = .fault f := by
  simp only [runAll, h]

theorem runAll_append_of_next {is : List Instr} {s t : State} (h : runAll is s = .next t) (js : List Instr) :
    runAll (is ++ js) s = runAll js t := by
  induction is generalizing s with
  | nil =>
    cases h
    rfl
  | cons i is ih =>
    cases hi : exec i s with
    | next u =>
      rw [runAll_cons_of_next hi] at h
      rw [List.cons_append, runAll_cons_of_next hi]
      exact ih h
    | fault f => simp [runAll, hi] at h
    | refused r => simp [runAll, hi] at h

theorem rxFeed_append (bs cs : List Byte) : rxFeed (bs ++ cs) = rxFeed bs ++ rxFeed cs := List.map_append

theorem rxFeed_cons (b : Byte) (bs : List Byte) : rxFeed (b :: bs) = .rxByte b :: rxFeed bs := rfl

theorem exec_rxByte_of_not_pending {s : State} (h : s.pending = false) (b : Byte) :
    exec (.rxByte b) s = .fault .noPendingRead := by
  rcases s.not_pending_iff.mp h with hst | hst | hst <;> simp only [exec, execRxByte, hst]

/-! ### The frame encoder's layout -/

/-- The addresses, command and sub-command of a frame, between its preamble and its payload (30_encoding.md R70). -/
def frameEnvelope (p : Params) (cmd : Byte) (hasSub : Bool) (sub : Byte) : List Byte :=
  [p.radioAddr, p.ctrlAddr, cmd] ++ if hasSub then [sub] else []

section
variable (p : Params) (cmd : Byte) (hasSub : Bool) (sub : Byte) (payload : List Byte)

theorem frameEnvelope_length : (frameEnvelope p cmd hasSub sub).length = 3 + hasSub.toNat := by
  cases hasSub <;> rfl

theorem frameBytes_eq_delimited :
    frameBytes p cmd hasSub sub payload = [0xFE, 0xFE] ++ (frameEnvelope p cmd hasSub sub ++ payload) ++ [0xFD] := rfl

theorem frameBytes_eq_header_append :
    frameBytes p cmd hasSub sub payload = [0xFE, 0xFE] ++ frameEnvelope p cmd hasSub sub ++ (payload ++ [0xFD]) :=
  List.append_assoc _ _ _

theorem frameHeader_length : ([0xFE, 0xFE] ++ frameEnvelope p cmd hasSub sub).length = 5 + hasSub.toNat := by
  rw [List.length_append, frameEnvelope_length, ← Nat.add_assoc]
  rfl

theorem frameBytes_length : (frameBytes p cmd hasSub sub payload).length = 6 + hasSub.toNat + payload.length := by
  rw [frameBytes_eq_header_append, List.length_append, frameHeader_length, List.length_append, List.length_singleton]
  omega

/-- The preamble and the envelope stand at their own offsets. -/
theorem frameBytes_getElem?_header {i : Nat} (hi : i < 5 + hasSub.toNat) :
    (frameBytes p cmd hasSub sub payload)[i]? = ([0xFE, 0xFE] ++ frameEnvelope p cmd hasSub sub)[i]? := by
  rw [frameBytes_eq_header_append, List.getElem?_append_left (by rwa [frameHeader_length])]

/-- The payload and the terminator stand behind them. -/
theorem frameBytes_getElem?_behind_header (i : Nat) :
    (frameBytes p cmd hasSub sub payload)[5 + hasSub.toNat + i]? = (payload ++ [0xFD])[i]? := by
  rw [frameBytes_eq_header_append, ← frameHeader_length p cmd hasSub sub, List.getElem?_append_right (Nat.le_add_right _ _),
    Nat.add_sub_cancel_left]

end

/-! ### Reading a frame back -/

/-- `RX_BUF` after the bytes are stored one after the other from index `n` on (40_frame_codec.md R112). -/
def storeBytes (buf : List Byte) (n : Nat) : List Byte → List Byte
  | [] => buf
  | b :: bs => storeBytes (buf.set n b) (n + 1) bs

theorem storeBytes_take (bs buf : List Byte) (n : Nat) (h : n + bs.length ≤ buf.length) :
    (storeBytes buf n bs).take (n + bs.length) = buf.take n ++ bs := by
  induction bs generalizing buf n with
  | nil => simp [storeBytes]
  | cons b bs ih =>
    rw [List.length_cons] at h ⊢
    have hroom : n + 1 + bs.length ≤ (buf.set n b).length := by rw [List.length_set]; omega
    have htake := ih (buf.set n b) (n + 1) hroom
    rw [take_succ_set, if_pos (by omega), List.append_assoc, List.singleton_append] at htake
    rwa [storeBytes, Nat.add_comm bs.length, ← Nat.add_assoc]

section
variable {s : State}

theorem exec_rxStart_of_not_pending (h : s.pending = false) :
    exec .rxStart s = .next { s with rxLen := 0, rxStatus := .ok, rxState := .hunt, out := some (.ok .none) } :=
  ((execRxStart_cases s).resolve_left (by simp [h])).2

theorem exec_rxByte_hunt_preamble (h : s.rxState = .hunt) :
    exec (.rxByte 0xFE) s = .next { s with rxState := .pre2, out := none } := by
  simp [exec, execRxByte, h, State.silent]

theorem exec_rxByte_pre2_preamble (h : s.rxState = .pre2) :
    exec (.rxByte 0xFE) s = .next { s with rxState := .body, out := none } := by
  simp [exec, execRxByte, h, State.silent]

theorem exec_rxByte_body_terminator (h : s.rxState = .body) :
    exec (.rxByte 0xFD) s = .next { s with rxState := .done, out := none } := by
  simp [exec, execRxByte, h, State.silent]

theorem exec_rxByte_body_append (h : s.rxState = .body) (hroom : s.rxLen < s.params.nRx) {b : Byte} (hb : b ≠ 0xFD) :
    exec (.rxByte b) s = .next { s with rxBuf := s.rxBuf.set s.rxLen b, rxLen := s.rxLen + 1, out := none } := by
  have happend := ((s.appendByte_cases b).resolve_right (by omega)).2
  simp only [exec, execRxByte, h, if_neg hb, happend, State.silent]

theorem exec_rxRead_done (h : s.rxState = .done) :
    exec .rxRead s = .next { s with rxLen := 0, rxState := .idle, out := some (.ok (.resp (s.rxBuf.take s.rxLen))) } := by
  simp [exec, execRxRead, h, State.response_eq, State.answer, State.give]

end

/-- A body of bytes other than 0xFD that fits the buffer is stored whole, and the receiver stays in BODY (40_frame_codec.md R108,
R112). -/
theorem runAll_rxFeed_body (bs : List Byte) (s : State) (hst : s.rxState = .body) (hout : s.out = none) (hno : 0xFD ∉ bs)
    (hroom : s.rxLen + bs.length ≤ s.params.nRx) :
    runAll (rxFeed bs) s = .next { s with rxBuf := storeBytes s.rxBuf s.rxLen bs, rxLen := s.rxLen + bs.length } := by
  induction bs generalizing s with
  | nil => rfl
  | cons b bs ih =>
    obtain ⟨hb, hbs⟩ := not_or.mp (mt List.mem_cons.mpr hno)
    rw [List.length_cons] at hroom ⊢
    have hstep := exec_rxByte_body_append hst (by omega) (Ne.symm hb)
    have hrest := ih { s with rxBuf := s.rxBuf.set s.rxLen b, rxLen := s.rxLen + 1, out := none } hst rfl hbs
      (by dsimp only; omega)
    rw [rxFeed_cons, runAll_cons_of_next hstep, hrest]
    simp only [storeBytes, hout, Nat.add_assoc, Nat.add_comm 1]

/-- READ_FRAME of a frame whose body holds no 0xFD and fits the buffer answers that body (30_encoding.md R85, 40_frame_codec.md R101,
R115). -/
theorem runAll_readFrame {s : State} {body : List Byte} (hpending : s.pending = false) (hdepth : s.rxBuf.length = s.params.nRx)
    (hno : 0xFD ∉ body) (hroom : body.length ≤ s.params.nRx) :
    runAll (readFrame ([0xFE, 0xFE] ++ body ++ [0xFD])) s =
      .next { s with rxState := .idle, rxLen := 0, rxStatus := .ok, rxBuf := storeBytes s.rxBuf 0 body,
                     out := some (.ok (.resp body)) } := by
  have htake : (storeBytes s.rxBuf 0 body).take (0 + body.length) = body :=
    storeBytes_take body s.rxBuf 0 (by omega)
  rw [readFrame, runAll_cons_of_next (exec_rxStart_of_not_pending hpending), rxFeed_append, rxFeed_append, List.append_assoc,
    List.append_assoc]
  change runAll (.rxByte 0xFE :: .rxByte 0xFE :: (rxFeed body ++ [.rxByte 0xFD, .rxRead])) _ = _
  rw [runAll_cons_of_next (exec_rxByte_hunt_preamble rfl), runAll_cons_of_next (exec_rxByte_pre2_preamble rfl),
    runAll_append_of_next (runAll_rxFeed_body body _ rfl rfl hno (by simpa using hroom)),
    runAll_cons_of_next (exec_rxByte_body_terminator rfl), runAll_cons_of_next (exec_rxRead_done rfl)]
  simp only [htake, runAll]

/-- SEND_FREQ of a frequency below 10^10 answers the frame of its field (30_encoding.md R85, 43_field_codec.md R180). -/
theorem sendFreq_eq {s : State} {hz : BitVec 34} (hrange : hz.toNat < 10 ^ 10) (hlegal : s.params.legal)
    (cmd : Byte) (hasSub : Bool) (sub : Byte) :
    sendFreq cmd hasSub sub hz s =
      .next { s with out := some (.ok (.frame (frameBytes s.params cmd hasSub sub (freqBytes hz.toNat)))) } := by
  have henc : exec (.freqEnc hz) s = _ := ((execFreqEnc_cases hz s).resolve_right (by omega)).2
  have hfits : (freqBytes hz.toNat).length ≤ s.params.pMax := (freqBytes_length _).trans_le hlegal.2
  rw [sendFreq, sendField_of_field henc rfl, exec_pure_withOut rfl]
  exact ((execFrameEnc_cases cmd hasSub sub _ s).resolve_right (by omega)).2

end Sys2Proof.Machine

namespace Sys2Proof.Proofs

open Sys2Proof.Machine

/-- Settles O41: SEND_FREQ answers a delimited frame whose body holds no 0xFD, because a BCD byte is no delimiter; READ_FRAME answers
that body whole, and FREQ_DEC reads the field at its end. -/
theorem sentFrequencyReadBack : Obligations.SentFrequencyReadBack := by
  intro s cmd hasSub sub hz hpending hdepth hlegal hrange henvelope hroom
  have hfield : 0xFD ∉ freqBytes hz.toNat := fun hmem => (ne_delimiter_of_isBcd (isBcd_of_mem_freqBytes hmem)).1 rfl
  have hno : 0xFD ∉ frameEnvelope s.params cmd hasSub sub ++ freqBytes hz.toNat :=
    fun hmem => (List.mem_append.mp hmem).elim henvelope hfield
  have hfits : (frameEnvelope s.params cmd hasSub sub ++ freqBytes hz.toNat).length ≤ s.params.nRx := by
    rw [List.length_append, frameEnvelope_length, freqBytes_length]
    omega
  have hsend := sendFreq_eq hrange hlegal cmd hasSub sub
  rw [frameBytes_eq_delimited] at hsend
  have hread := runAll_readFrame (s := { s with out := _ }) hpending hdepth hno hfits
  exact ⟨_, _, _, _, _, hsend, rfl, hread, rfl, exec_freqDec_freqBytes hrange _ _, rfl⟩

/-- Settles O43, by the operand ports of each row, which read back as the operation they carry. -/
theorem decodeEncodeRoundTrip : Obligations.DecodeEncodeRoundTrip := fun _ => decode_encode

/-- Settles O2: the bytes are counted, and a decoder's tail with one such byte in it is not all BCD. -/
theorem nonBcdBytesRejected : Obligations.NonBcdBytesRejected := by
  refine ⟨by decide +kernel, isBcd_eq_false_iff, fun s b hb => ⟨?_, fun p t hbt => ⟨?_, ?_, ?_⟩⟩⟩
  · exact ((execBcdDec_cases b s).resolve_left (by simp [hb])).2
  all_goals exact fun hk => decodeTail_raises_badBcd hb hbt hk p s _

/-- Settles O8, by the offsets before the payload and those from it on. -/
theorem frameLayoutByOffset : Obligations.FrameLayoutByOffset := by
  intro s cmd hasSub sub payload hlen
  have header := fun i => frameBytes_getElem?_header s.params cmd hasSub sub payload (i := i)
  have behind := frameBytes_getElem?_behind_header s.params cmd hasSub sub payload
  refine ⟨frameBytes s.params cmd hasSub sub payload, ?_, frameBytes_length _ _ _ _ _, header 0 (by omega), header 1 (by omega),
    header 2 (by omega), header 3 (by omega), header 4 (by omega), ?_, fun i hi => ?_, ?_⟩
  · exact ((execFrameEnc_cases cmd hasSub sub payload s).resolve_right (by omega)).2
  · rintro rfl
    exact header 5 (by decide)
  · rw [behind, List.getElem?_append_left hi]
  · rw [behind, List.getElem?_concat_length]

/-- Settles O38: only the field encoders carry a field, and every byte of theirs is a BCD byte. -/
theorem encodersEmitNoDelimiter : Obligations.EncodersEmitNoDelimiter := by
  refine ⟨fun b hb => ⟨toNat_le_of_isBcd hb, ne_delimiter_of_isBcd hb⟩, fun s t i f h hf b hmem => ?_⟩
  have hb := isBcd_of_mem_fieldOf h hf b hmem
  exact ⟨hb, ne_delimiter_of_isBcd hb⟩

/-- Settles O39, by what a field encoder's record can be; FRAME_ENC does not read the record that the encoder left. -/
theorem sendFormsFrameTheField : Obligations.SendFormsFrameTheField := by
  intro s i cmd hasSub sub hi
  obtain ⟨r, h, ⟨st, rfl⟩ | ⟨f, hf, -⟩⟩ := exec_encoder_record hi s
  · exact ⟨_, h, fun _ => sendField_of_no_field h rfl cmd hasSub sub, fun hne => absurd rfl (hne st)⟩
  · refine ⟨_, h, ?_, fun _ => ⟨f, hf, ?_⟩⟩
    · rintro ⟨st, hst⟩
      cases hst
      cases hf
    · rw [sendField_of_field h hf]
      exact exec_pure_withOut rfl s _

/-- Settles O40: the feed goes on from the state the first bytes end in, where no read is pending. -/
theorem feedOutlivingFrameIsStuck : Obligations.FeedOutlivingFrameIsStuck := by
  intro s pre b bs t hpre ht
  rw [rxFeed_append, runAll_append_of_next hpre, rxFeed_cons]
  exact runAll_cons_of_fault (exec_rxByte_of_not_pending ht b) _

/-- Settles O44, by what the operand ports of each row can read as. -/
theorem encodeDecodeRoundTrip : Obligations.EncodeDecodeRoundTrip := fun _ _ => encode_of_decode

/-- Settles O57: no operation raises the status OK, RX_READ because the status held in ERR is not OK (10_state.md R30 (d)). -/
theorem hostStepsReturnRecords : Obligations.HostStepsReturnRecords := by
  refine fun s i => ⟨fun hi => ?_, fun hi _ h => exec_transport_out hi h⟩
  obtain ⟨t, r, h, hout, hr⟩ := exec_host_record hi s
  exact ⟨t, r, h, hout, fun hinv => Record.status_ok_iff (hr hinv)⟩

/-- Settles O45, by evaluating the decoder on the 17 requests. -/
theorem selectorsDecodeToTheirRows : Obligations.SelectorsDecodeToTheirRows := ⟨rfl, rfl, rfl, rfl⟩

/-- Settles O46: no row of the table has a selector in the reserved ranges. -/
theorem reservedSelectorsReturnIllop : Obligations.ReservedSelectorsReturnIllop := by
  intro s op ports rest hop hs
  have hreserved : ∀ o : Opcode, o.code ≠ op := by
    intro o
    cases o <;> simp only [Opcode.code] <;> omega
  have hdecode : decode (op :: ports) = .error (.reservedOp op) := decode_reserved (by omega) hreserved ports
  rw [step_of_inputs hs]
  exact runRequest_of_reserved hdecode _

/-- Settles O47: a request that decodes runs as the operation it decodes to. -/
theorem stepRunsDecodedInstruction : Obligations.StepRunsDecodedInstruction := by
  intro s r rest i hs hdecode _
  rw [step_of_inputs hs]
  exact runRequest_of_decode hdecode _

end Sys2Proof.Proofs
end

/-! The family 40_frame_codec.md: FRAME_ENC (R100, R101), the receiver's rules by state (R104 to R115), and the receiver as the
function `read_frame` of the events delivered (R116). -/

namespace Sys2Proof.Machine

/-! ### The receiver's rules -/

section
variable {s : State}

theorem exec_rxStart_of_pending (h : s.pending = true) : exec .rxStart s = .next { s with out := some (.raised .busy) } :=
  ((execRxStart_cases s).resolve_right (by simp [h])).2

theorem exec_rxByte_hunt_other (h : s.rxState = .hunt) {b : Byte} (hb : b ≠ 0xFE) :
    exec (.rxByte b) s = .next { s with out := none } := by
  simp only [exec, execRxByte, h, if_neg hb, State.silent]

theorem exec_rxByte_pre2_other (h : s.rxState = .pre2) {b : Byte} (hb : b ≠ 0xFE) :
    exec (.rxByte b) s = .next { s with rxState := .err, rxStatus := .malformed, out := none } := by
  simp only [exec, execRxByte, h, if_neg hb, State.silent, State.failReceive]

theorem exec_rxByte_body_overflow (h : s.rxState = .body) (hfull : s.params.nRx ≤ s.rxLen) {b : Byte} (hb : b ≠ 0xFD) :
    exec (.rxByte b) s = .next { s with rxState := .err, rxStatus := .overflow, rxLen := 0, out := none } := by
  have hover := ((s.appendByte_cases b).resolve_left (by omega)).2
  simp only [exec, execRxByte, h, if_neg hb, hover, State.silent]

theorem exec_rxTimeout_of_pending (h : s.pending = true) :
    exec .rxTimeout s = .next { s with rxState := .err, rxStatus := .timeout, rxLen := 0, out := none } :=
  ((execRxTimeout_cases s).resolve_left (by simp [h])).2

theorem exec_rxTimeout_of_not_pending (h : s.pending = false) : exec .rxTimeout s = .fault .noPendingRead :=
  ((execRxTimeout_cases s).resolve_right (by simp [h])).2

theorem exec_rxRead_of_pending (h : s.pending = true) : exec .rxRead s = .next { s with out := some (.raised .busy) } := by
  rcases s.pending_iff.mp h with hst | hst | hst <;> simp only [exec, execRxRead, hst, State.raise_eq]

theorem exec_rxRead_idle (h : s.rxState = .idle) : exec .rxRead s = .next { s with out := some (.raised .empty) } := by
  simp only [exec, execRxRead, h, State.raise_eq]

theorem exec_rxRead_err (h : s.rxState = .err) :
    exec .rxRead s = .next { s with rxStatus := .ok, rxState := .idle, out := some (.raised s.rxStatus) } := by
  simp only [exec, execRxRead, h, State.raise_eq]

/-! ### Which steps there are (40_frame_codec.md R109) -/

theorem exec_event_of_pending (h : s.pending = true) (e : RxEvent) : ∃ t, exec e.instr s = .next t := by
  cases e with
  | timeout => exact ⟨_, exec_rxTimeout_of_pending h⟩
  | byte b =>
    rcases execRxByte_cases b s with ⟨hnot, -⟩ | ⟨-, -, e⟩ | ⟨-, -, e⟩ | ⟨-, -, e⟩ | ⟨-, -, e⟩ | ⟨-, -, e⟩ | ⟨-, -, e⟩
    · cases h.symm.trans hnot
    all_goals exact ⟨_, e⟩

theorem exec_event_of_not_pending (h : s.pending = false) (e : RxEvent) : exec e.instr s = .fault .noPendingRead := by
  cases e with
  | timeout => exact exec_rxTimeout_of_not_pending h
  | byte b => exact exec_rxByte_of_not_pending h b

end

theorem exists_event_of_transport {i : Instr} (h : i.opcode.issuedBy = .transport) : ∃ e : RxEvent, i = e.instr := by
  cases i with
  | rxByte b => exact ⟨.byte b, rfl⟩
  | rxTimeout => exact ⟨.timeout, rfl⟩
  | rxStart | rxRead | frameEnc | bcdEnc | bcdDec | bswap | freqEnc | freqDec | timeEnc | timeDec | dateEnc | dateDec => cases h

theorem exec_next_iff_admits (i : Instr) (s : State) : (∃ t, exec i s = .next t) ↔ s.admits i = true := by
  cases hi : i.opcode.issuedBy with
  | host =>
    obtain ⟨t, -, h, -⟩ := exec_host_record hi s
    simp [State.admits, hi, h]
  | transport =>
    obtain ⟨e, rfl⟩ := exists_event_of_transport hi
    cases hp : s.pending with
    | true => simp [State.admits, hi, hp, exec_event_of_pending hp e]
    | false => simp [State.admits, hi, hp, exec_event_of_not_pending hp e]

theorem runRequest_next_iff_admits (r : Request) (s : State) :
    (∃ t, runRequest r s = .next t) ↔ s.admitsInput (.request r) = true := by
  cases hd : decode r with
  | ok i =>
    simp only [runRequest, State.admitsInput, hd]
    exact exec_next_iff_admits i s
  | error e =>
    cases e with
    | reservedOp op => simp [runRequest, State.admitsInput, hd, State.raise_eq]
    | noSelector | selectorTooWide | wrongPorts | portTooWide => simp [runRequest, State.admitsInput, hd]

/-! ### The addresses are not read (40_frame_codec.md R113) -/

/-- An answer whose next state, if it has one, has the parameters `p`. -/
def withParams (p : Params) : Answer → Answer
  | .next t => .next { t with params := p }
  | .fault f => .fault f
  | .refused r => .refused r

section
variable (p : Params) (s : State)

theorem State.appendByte_withParams (hp : p.nRx = s.params.nRx) (b : Byte) :
    State.appendByte { s with params := p } b = { s.appendByte b with params := p } := by
  by_cases hroom : s.rxLen < s.params.nRx <;> simp [State.appendByte, State.memWrite, hp, hroom]

theorem execRxStart_withParams : execRxStart { s with params := p } = withParams p (execRxStart s) := by
  obtain ⟨q, st, n, e, buf, o, ins, k⟩ := s
  cases st <;> rfl

theorem execRxTimeout_withParams : execRxTimeout { s with params := p } = withParams p (execRxTimeout s) := by
  obtain ⟨q, st, n, e, buf, o, ins, k⟩ := s
  cases st <;> rfl

theorem execRxRead_withParams : execRxRead { s with params := p } = withParams p (execRxRead s) := by
  obtain ⟨q, st, n, e, buf, o, ins, k⟩ := s
  cases st <;> rfl

/-- RX_BYTE reads one parameter, the depth `N_RX` of the buffer, and that only to append. -/
theorem execRxByte_withParams (hp : p.nRx = s.params.nRx) (b : Byte) :
    execRxByte b { s with params := p } = withParams p (execRxByte b s) := by
  have happend := State.appendByte_withParams p s hp b
  obtain ⟨q, st, n, e, buf, o, ins, k⟩ := s
  cases st with
  | idle | done | err => rfl
  | hunt | pre2 =>
    simp only [execRxByte]
    split <;> rfl
  | body =>
    simp only [execRxByte, happend]
    split <;> rfl

theorem exec_receiver_withParams (hp : p.nRx = s.params.nRx) {i : Instr}
    (hi : i ∈ [Instr.rxStart, .rxTimeout, .rxRead] ∨ ∃ b, i = .rxByte b) :
    exec i { s with params := p } = withParams p (exec i s) := by
  rcases hi with hi | ⟨b, rfl⟩
  · simp only [List.mem_cons, List.not_mem_nil, or_false] at hi
    rcases hi with rfl | rfl | rfl
    · exact execRxStart_withParams p s
    · exact execRxTimeout_withParams p s
    · exact execRxRead_withParams p s
  · exact execRxByte_withParams p s hp b

end

/-! ### A delimited frame -/

section
variable (body : List Byte)

theorem delimited_drop_dropLast : (([0xFE, 0xFE] ++ body ++ [0xFD]).drop 2).dropLast = body :=
  List.dropLast_concat

theorem delimited_length : ([0xFE, 0xFE] ++ body ++ [0xFD]).length = body.length + 3 := by
  simp

theorem delimited_counts (hFD : 0xFD ∉ body) (hFE : 0xFE ∉ body) :
    ([0xFE, 0xFE] ++ body ++ [0xFD]).count 0xFE = 2 ∧ ([0xFE, 0xFE] ++ body ++ [0xFD]).count 0xFD = 1 := by
  constructor
  · simpa [List.count_eq_zero] using hFE
  · simpa [List.count_eq_zero] using hFD

end

/-! ### The receiver as a function of the events delivered (40_frame_codec.md R116)

`ReceiveEnds` relates the state that a delivery ends in to the value of `read_frame`; it is established for the body, then for the
second preamble byte, then for the hunt, as `read_frame` is defined. -/

theorem storeBytes_concat (bs : List Byte) (b : Byte) (buf : List Byte) (n : Nat) :
    storeBytes buf n (bs ++ [b]) = (storeBytes buf n bs).set (n + bs.length) b := by
  induction bs generalizing buf n with
  | nil => rfl
  | cons c bs ih =>
    rw [List.cons_append, storeBytes, ih, storeBytes, List.length_cons, Nat.add_assoc, Nat.add_comm 1]

/-- `s` with a receive at position `st` that has collected `acc`. -/
def State.receiving (s : State) (st : RxState) (acc : List Byte) (out : Option Record) : State :=
  { s with rxState := st, rxLen := acc.length, rxStatus := .ok, rxBuf := storeBytes s.rxBuf 0 acc, out := out }

/-- How a receive begun in `s` stands at `u`, where `read_frame` of the events so far has this value: pending without one, DONE with
the bytes collected, ERR with the status held. -/
inductive ReceiveEnds (s u : State) : Option Record → Prop where
  | pending (hpending : u.pending = true) : ReceiveEnds s u none
  | done {acc : List Byte} (hroom : acc.length ≤ s.params.nRx) (hu : u = s.receiving .done acc none) :
      ReceiveEnds s u (some (.ok (.resp acc)))
  | err {st : Status} (hst : u.rxState = .err) (hlen : u.rxLen = 0) (hstatus : u.rxStatus = st) :
      ReceiveEnds s u (some (.raised st))

section
variable {s t : State}

theorem deliver_of_not_pending (h : s.pending = false) (evs : List RxEvent) : deliver evs s = .next s := by
  cases evs <;> simp [deliver, h]

theorem deliver_cons_of_next {e : RxEvent} (hs : s.pending = true) (h : exec e.instr s = .next t) (es : List RxEvent) :
    deliver (e :: es) s = deliver es t := by
  simp only [deliver, hs, h, if_true]

theorem deliver_byte_of_next {b : Byte} (hs : s.pending = true) (h : exec (.rxByte b) s = .next t) (es : List RxEvent) :
    deliver (.byte b :: es) s = deliver es t :=
  deliver_cons_of_next (e := .byte b) hs h es

/-- Events after the byte that ends the receive are never delivered. -/
theorem deliver_byte_of_last {b : Byte} (hs : s.pending = true) (h : exec (.rxByte b) s = .next t) (ht : t.pending = false)
    (es : List RxEvent) : deliver (.byte b :: es) s = .next t :=
  (deliver_byte_of_next hs h es).trans (deliver_of_not_pending ht es)

end

section
variable (s : State) (evs : List RxEvent) (out : Option Record)

/-- A timeout ends the receive, whatever has been collected (40_frame_codec.md R111). -/
theorem deliver_timeout_ends {u : State} (hu : u.pending = true) :
    ∃ v, deliver (.timeout :: evs) u = .next v ∧ ReceiveEnds s v (some (.raised .timeout)) := by
  have hstep := deliver_cons_of_next (e := .timeout) hu (exec_rxTimeout_of_pending hu) evs
  exact ⟨_, hstep.trans (deliver_of_not_pending rfl evs), .err rfl rfl rfl⟩

theorem deliver_body_ends (acc : List Byte) (hroom : acc.length ≤ s.params.nRx) :
    ∃ u, deliver evs (s.receiving .body acc out) = .next u ∧ ReceiveEnds s u (bodyResult s.params.nRx acc evs) := by
  induction evs generalizing acc out with
  | nil => exact ⟨_, rfl, .pending rfl⟩
  | cons e es ih =>
    cases e with
    | timeout => exact deliver_timeout_ends s es rfl
    | byte b =>
      have hbody : (s.receiving .body acc out).rxState = .body := rfl
      rw [bodyResult]
      by_cases hterm : b = 0xFD
      · subst hterm
        rw [if_pos rfl]
        exact ⟨_, deliver_byte_of_last rfl (exec_rxByte_body_terminator hbody) rfl es, .done hroom rfl⟩
      rw [if_neg hterm]
      by_cases hfull : acc.length = s.params.nRx
      · rw [if_pos hfull]
        exact ⟨_, deliver_byte_of_last rfl (exec_rxByte_body_overflow hbody hfull.ge hterm) rfl es, .err rfl rfl rfl⟩
      · rw [if_neg hfull]
        have hlt : acc.length < s.params.nRx := by omega
        have hstep : exec (.rxByte b) (s.receiving .body acc out) = .next (s.receiving .body (acc ++ [b]) none) := by
          rw [exec_rxByte_body_append hbody hlt hterm]
          simp [State.receiving, storeBytes_concat]
        rw [deliver_byte_of_next rfl hstep]
        exact ih none (acc ++ [b]) (by simpa using hlt)

theorem deliver_pre2_ends :
    ∃ u, deliver evs (s.receiving .pre2 [] out) = .next u ∧ ReceiveEnds s u (pre2Result s.params.nRx evs) := by
  cases evs with
  | nil => exact ⟨_, rfl, .pending rfl⟩
  | cons e es =>
    cases e with
    | timeout => exact deliver_timeout_ends s es rfl
    | byte b =>
      have hpre2 : (s.receiving .pre2 [] out).rxState = .pre2 := rfl
      rw [pre2Result]
      by_cases hpre : b = 0xFE
      · subst hpre
        rw [if_pos rfl, deliver_byte_of_next rfl (exec_rxByte_pre2_preamble hpre2)]
        exact deliver_body_ends s es none [] (Nat.zero_le _)
      · rw [if_neg hpre]
        exact ⟨_, deliver_byte_of_last rfl (exec_rxByte_pre2_other hpre2 hpre) rfl es, .err rfl rfl rfl⟩

theorem deliver_hunt_ends :
    ∃ u, deliver evs (s.receiving .hunt [] out) = .next u ∧ ReceiveEnds s u (huntResult s.params.nRx evs) := by
  induction evs generalizing out with
  | nil => exact ⟨_, rfl, .pending rfl⟩
  | cons e es ih =>
    cases e with
    | timeout => exact deliver_timeout_ends s es rfl
    | byte b =>
      have hhunt : (s.receiving .hunt [] out).rxState = .hunt := rfl
      rw [huntResult]
      by_cases hpre : b = 0xFE
      · subst hpre
        rw [if_pos rfl, deliver_byte_of_next rfl (exec_rxByte_hunt_preamble hhunt)]
        exact deliver_pre2_ends s es none
      · rw [if_neg hpre, deliver_byte_of_next rfl (exec_rxByte_hunt_other hhunt hpre)]
        exact ih none

end

/-- RX_START and the delivery of any events have next states, and the last one stands as `read_frame` of the events says. -/
theorem receive_ends {s : State} (h : s.pending = false) (evs : List RxEvent) :
    ∃ t u, exec .rxStart s = .next t ∧ deliver evs t = .next u ∧ ReceiveEnds s u (huntResult s.params.nRx evs) := by
  obtain ⟨u, hdeliver, hends⟩ := deliver_hunt_ends s evs (some (.ok .none))
  exact ⟨_, u, exec_rxStart_of_not_pending h, hdeliver, hends⟩

/-- RX_READ answers the result that the receive ended with (40_frame_codec.md R115). -/
theorem ReceiveEnds.rxRead {s u : State} {r : Record} (h : ReceiveEnds s u (some r))
    (hdepth : s.rxBuf.length = s.params.nRx) :
    u.pending = false ∧ ∃ v, exec .rxRead u = .next v ∧ v.out = some r ∧ v.rxState = .idle ∧ v.rxLen = 0 ∧ v.rxStatus = .ok := by
  cases h with
  | @done acc hroom hu =>
    subst hu
    have hbytes : (storeBytes s.rxBuf 0 acc).take (0 + acc.length) = acc := storeBytes_take acc s.rxBuf 0 (by omega)
    rw [Nat.zero_add] at hbytes
    refine ⟨rfl, _, exec_rxRead_done rfl, ?_, rfl, rfl, rfl⟩
    simp only [State.receiving, hbytes]
  | err hst hlen hstatus =>
    exact ⟨u.not_pending_iff.mpr (.inr (.inr hst)), _, exec_rxRead_err hst, by rw [hstatus], rfl, hlen, rfl⟩

/-! ### The value of `read_frame` of some byte sequences -/

section
variable (n : Nat) (evs : List RxEvent)

theorem huntResult_noise {noise : List Byte} (h : 0xFE ∉ noise) :
    huntResult n (noise.map .byte ++ evs) = huntResult n evs := by
  induction noise with
  | nil => rfl
  | cons b bs ih =>
    obtain ⟨hb, hbs⟩ := not_or.mp (mt List.mem_cons.mpr h)
    rw [List.map_cons, List.cons_append, huntResult, if_neg (Ne.symm hb), ih hbs]

theorem huntResult_preamble : huntResult n (.byte 0xFE :: .byte 0xFE :: evs) = bodyResult n [] evs := by
  rw [huntResult, if_pos rfl, pre2Result, if_pos rfl]

theorem bodyResult_terminated {body : List Byte} (h : 0xFD ∉ body) (acc : List Byte) (hroom : acc.length + body.length ≤ n) :
    bodyResult n acc (body.map .byte ++ .byte 0xFD :: evs) = some (.ok (.resp (acc ++ body))) := by
  induction body generalizing acc with
  | nil => simp [bodyResult]
  | cons b bs ih =>
    obtain ⟨hb, hbs⟩ := not_or.mp (mt List.mem_cons.mpr h)
    rw [List.length_cons] at hroom
    have hrest := ih hbs (acc ++ [b]) (by simp; omega)
    rw [List.map_cons, List.cons_append, bodyResult, if_neg (Ne.symm hb), if_neg (by omega), hrest, List.append_assoc]
    rfl

theorem bodyResult_overlong {body : List Byte} (h : 0xFD ∉ body) (acc : List Byte) (hroom : acc.length ≤ n)
    (hover : n < acc.length + body.length) : bodyResult n acc (body.map .byte ++ evs) = some (.raised .overflow) := by
  induction body generalizing acc with
  | nil =>
    rw [List.length_nil] at hover
    omega
  | cons b bs ih =>
    obtain ⟨hb, hbs⟩ := not_or.mp (mt List.mem_cons.mpr h)
    rw [List.length_cons] at hover
    rw [List.map_cons, List.cons_append, bodyResult, if_neg (Ne.symm hb)]
    by_cases hfull : acc.length = n
    · rw [if_pos hfull]
    · rw [if_neg hfull]
      exact ih hbs (acc ++ [b]) (by simp; omega) (by simp; omega)

end

end Sys2Proof.Machine

namespace Sys2Proof.Proofs

open Sys2Proof.Machine

/-- Settles O17: the delivery ends where `read_frame` says, and RX_READ takes what it ended with. -/
theorem receiverIsReadFrame : Obligations.ReceiverIsReadFrame := by
  intro s evs hpending hdepth
  obtain ⟨t, u, hstart, hdeliver, hends⟩ := receive_ends hpending evs
  refine ⟨t, u, hstart, hdeliver, fun hnone => ?_, fun r hr => ?_⟩
  · rw [hnone] at hends
    cases hends with
    | pending h => exact h
  · rw [hr] at hends
    exact hends.rxRead hdepth

/-- Settles O9: FRAME_ENC delimits a body, and READ_FRAME of a delimited body without 0xFD answers it. -/
theorem encodedFrameReadBack : Obligations.EncodedFrameReadBack := by
  intro s cmd hasSub sub payload hpending hdepth hfits
  have henc := ((execFrameEnc_cases cmd hasSub sub payload s).resolve_right (by omega)).2
  have hlength := frameBytes_length s.params cmd hasSub sub payload
  rw [frameBytes_eq_delimited] at henc hlength
  refine ⟨_, _, henc, rfl, rfl, rfl, List.getLast?_concat, hlength, fun hFD => ⟨fun hroom => ?_, delimited_counts _ hFD⟩⟩
  rw [delimited_length, Nat.add_sub_cancel] at hroom
  refine ⟨_, runAll_readFrame (s := { s with out := _ }) hpending hdepth hFD hroom, ?_, rfl, rfl, rfl⟩
  rw [delimited_drop_dropLast]

/-- Settles O20, by the value of `read_frame` there: the noise is skipped, and the body is collected up to the terminator. -/
theorem firstTerminatorEndsFrame : Obligations.FirstTerminatorEndsFrame := by
  intro s noise body later hpending hdepth hnoise hbody hroom
  have hresult : huntResult s.params.nRx ((noise ++ [0xFE, 0xFE] ++ body ++ [0xFD]).map .byte ++ later) =
      some (.ok (.resp body)) := by
    simp only [List.map_append, List.append_assoc]
    rw [huntResult_noise _ _ hnoise]
    change huntResult _ (.byte 0xFE :: .byte 0xFE :: (body.map .byte ++ .byte 0xFD :: later)) = _
    rw [huntResult_preamble]
    exact bodyResult_terminated _ _ hbody [] (by simpa using hroom)
  obtain ⟨t, u, hstart, hdeliver, hends⟩ := receive_ends hpending _
  rw [hresult] at hends
  obtain ⟨-, v, hread, hout, hidle, -⟩ := hends.rxRead hdepth
  cases hends with
  | done _ hu => exact ⟨t, u, v, hstart, hdeliver, by rw [hu]; rfl, by rw [hu]; rfl, hread, hout, hidle⟩

/-- Settles O21, by the value of `read_frame` there: the byte that finds the buffer full overflows. -/
theorem overlongBodyOverflows : Obligations.OverlongBodyOverflows := by
  intro s body later hpending hbody hover
  have hresult : huntResult s.params.nRx (([0xFE, 0xFE] ++ body).map .byte ++ later) = some (.raised .overflow) := by
    change huntResult _ (.byte 0xFE :: .byte 0xFE :: (body.map .byte ++ later)) = _
    rw [huntResult_preamble]
    exact bodyResult_overlong _ _ hbody [] (Nat.zero_le _) (by simpa using hover)
  obtain ⟨t, u, hstart, hdeliver, hends⟩ := receive_ends hpending _
  rw [hresult] at hends
  cases hends with
  | err hst hlen hstatus =>
    exact ⟨t, u, _, hstart, hdeliver, hst, hlen, hstatus, exec_rxRead_err hst, by rw [hstatus], rfl, rfl⟩

/-- Settles O59, by what is presented: reset always runs, and a request as its operation does. -/
theorem stepAnswersExactlyWhenAdmitted : Obligations.StepAnswersExactlyWhenAdmitted := by
  intro s x rest hs
  rw [step_of_inputs hs]
  cases x with
  | reset => exact iff_of_true ⟨_, rfl⟩ rfl
  | request r => exact runRequest_next_iff_admits r { s with inputs := rest }

/-- Settles O7, by everything FRAME_ENC can do. -/
theorem frameEncBuildsFrame : Obligations.FrameEncBuildsFrame := by
  intro s cmd hasSub sub payload
  have hcases := execFrameEnc_cases cmd hasSub sub payload s
  exact ⟨fun h => (hcases.resolve_right (by omega)).2, fun h => (hcases.resolve_left (by omega)).2⟩

/-- Settles O10, by whether a read is pending. -/
theorem rxStartBeginsReceive : Obligations.RxStartBeginsReceive := fun s =>
  ⟨fun h => exec_rxStart_of_not_pending (s.not_pending_iff.mpr h), fun h => exec_rxStart_of_pending (s.pending_iff.mpr h)⟩

/-- Settles O11, by the two rules of the hunt. -/
theorem huntWaitsForPreamble : Obligations.HuntWaitsForPreamble := fun _ _ hst =>
  ⟨fun hb => hb ▸ exec_rxByte_hunt_preamble hst, exec_rxByte_hunt_other hst⟩

/-- Settles O12, by the two rules for the byte after the first 0xFE. -/
theorem secondPreambleRequired : Obligations.SecondPreambleRequired := fun _ _ hst =>
  ⟨fun hb => hb ▸ exec_rxByte_pre2_preamble hst, exec_rxByte_pre2_other hst⟩

/-- Settles O13, by the three rules of the body. -/
theorem bodyByteEndsAppendsOrOverflows : Obligations.BodyByteEndsAppendsOrOverflows := fun _ _ hst =>
  ⟨fun hb => hb ▸ exec_rxByte_body_terminator hst, fun hb hroom => exec_rxByte_body_append hst hroom hb,
    fun hb hfull => exec_rxByte_body_overflow hst hfull hb⟩

/-- Settles O14, by whether a read is pending. -/
theorem timeoutFailsReceive : Obligations.TimeoutFailsReceive := by
  refine fun s => ⟨fun h => exec_rxTimeout_of_pending (s.pending_iff.mpr h), fun h t hnext => ?_⟩
  cases (exec_rxTimeout_of_not_pending (s.not_pending_iff.mpr h)).symm.trans hnext

/-- Settles O15, by whether a read is pending. -/
theorem receiveEventsOnlyWhilePending : Obligations.ReceiveEventsOnlyWhilePending := fun s e =>
  ⟨fun h => exec_event_of_pending (s.pending_iff.mpr h) e, fun h => exec_event_of_not_pending (s.not_pending_iff.mpr h) e⟩

/-- Settles O16, by the rule of each receiver state. -/
theorem rxReadTakesResult : Obligations.RxReadTakesResult := fun s =>
  ⟨fun h => exec_rxRead_of_pending (s.pending_iff.mpr h), exec_rxRead_idle, exec_rxRead_done, exec_rxRead_err⟩

/-- Settles O19: under the parameters `p` a receiver operation answers the same, with `p` in the next state. -/
theorem receiverIgnoresAddresses : Obligations.ReceiverIgnoresAddresses := by
  intro s p i hi hp
  rw [exec_receiver_withParams p s hp hi]
  exact ⟨fun t h => by rw [h]; rfl, fun f h => by rw [h]; rfl⟩

/-- Settles O23: RX_READ raises a status everywhere but in DONE, and the status held in ERR is not OK (10_state.md R30 (d)). -/
theorem failedReadReturnsNoBytes : Obligations.FailedReadReturnsNoBytes := by
  intro s hinv
  rcases execRxRead_cases s with ⟨hst, h⟩ | ⟨hst, h⟩ | ⟨hst, h⟩ | ⟨hst, h⟩
  · have hdone : s.rxState ≠ .done := fun hst' => by simp [State.pending, hst', RxState.pending] at hst
    exact ⟨_, _, h, rfl, fun _ => rfl, iff_of_false nofun hdone⟩
  · exact ⟨_, _, h, rfl, fun _ => rfl, iff_of_false nofun (by simp [hst])⟩
  · exact ⟨_, _, h, rfl, fun hne => absurd rfl hne, iff_of_true rfl hst⟩
  · have hstatus : s.rxStatus ≠ .ok := by
      rcases hinv.statusErr hst with e | e | e <;> simp [e]
    exact ⟨_, _, h, rfl, fun _ => rfl, iff_of_false hstatus (by simp [hst])⟩

end Sys2Proof.Proofs

/-! The family 41_bcd_codec.md: what BCD_ENC and BCD_DEC answer for the operands of each case (R140, R141), and the two mappings between
the values up to 99 and the BCD bytes as inverses (R142). -/

namespace Sys2Proof.Machine

/-! ### The answers by operand (41_bcd_codec.md R140, R141) -/

theorem exec_bcdEnc_of_le {v : BitVec 8} (h : v.toNat ≤ 99) (s : State) :
    exec (.bcdEnc v) s = .next { s with out := some (.ok (.bcdByte (bcdByte v.toNat))) } :=
  ((execBcdEnc_cases v s).resolve_right (by omega)).2

theorem exec_bcdEnc_of_gt {v : BitVec 8} (h : 99 < v.toNat) (s : State) :
    exec (.bcdEnc v) s = .next { s with out := some (.raised .range) } :=
  ((execBcdEnc_cases v s).resolve_left (by omega)).2

theorem exec_bcdDec_of_isBcd {b : Byte} (h : isBcd b = true) (s : State) :
    exec (.bcdDec b) s = .next { s with out := some (.ok (.value (bcdPort b))) } :=
  ((execBcdDec_cases b s).resolve_right (by simp [h])).2

theorem exec_bcdDec_of_not_isBcd {b : Byte} (h : isBcd b = false) (s : State) :
    exec (.bcdDec b) s = .next { s with out := some (.raised .badBcd) } :=
  ((execBcdDec_cases b s).resolve_left (by simp [h])).2

/-! ### The two mappings are inverses (41_bcd_codec.md R142) -/

theorem bcdValue_le {b : Byte} (h : isBcd b = true) : bcdValue b ≤ 99 := by
  obtain ⟨htens, hunits⟩ := (isBcd_iff b).mp h
  rw [bcdValue_eq]
  omega

/-- The value of a BCD byte fits the 8-bit result port, so the port carries it whole. -/
theorem bcdPort_toNat {b : Byte} (h : isBcd b = true) : (bcdPort b).toNat = bcdValue b := by
  have hle := bcdValue_le h
  rw [bcdPort, BitVec.toNat_ofNat]
  omega

theorem bcdByte_bcdValue {b : Byte} (h : isBcd b = true) : bcdByte (bcdValue b) = b := by
  obtain ⟨htens, hunits⟩ := (isBcd_iff b).mp h
  apply BitVec.eq_of_toNat_eq
  rw [bcdByte_toNat (bcdValue_le h), bcdValue_eq]
  omega

theorem bcdByte_bcdPort {b : Byte} (h : isBcd b = true) : bcdByte (bcdPort b).toNat = b := by
  rw [bcdPort_toNat h, bcdByte_bcdValue h]

theorem bcdPort_bcdByte {v : BitVec 8} (h : v.toNat ≤ 99) : bcdPort (bcdByte v.toNat) = v := by
  rw [bcdPort, bcdValue_bcdByte h, BitVec.ofNat_toNat, BitVec.setWidth_eq]

/-! ### The text method (41_bcd_codec.md R144) -/

/-- A number from 10 to 99 has two decimal digits, so its decimal text read to the base `k` is `k * tens + units`. -/
theorem ofDigits_digits_of_two_digits (k : Nat) {v : Nat} (hlow : 10 ≤ v) (hhigh : v ≤ 99) :
    Nat.ofDigits k (Nat.digits 10 v) = k * (v / 10) + v % 10 := by
  have htens : v / 10 ≠ 0 := by omega
  have hdigits : Nat.digits 10 v = [v % 10, v / 10] := by
    rw [Nat.digits_def' (by omega) (by omega), Nat.digits_of_lt 10 (v / 10) htens (by omega)]
  rw [hdigits, Nat.ofDigits_cons, Nat.ofDigits_singleton, Nat.add_comm]

end Sys2Proof.Machine

namespace Sys2Proof.Proofs

open Sys2Proof.Machine

/-- Settles O5: `bcdByte` and the result port of BCD_DEC take each other back on the values up to 99 and the BCD bytes. -/
theorem bcdRoundTrip : Obligations.BcdRoundTrip := by
  refine ⟨fun s v hv => ⟨bcdByte v.toNat, isBcd_bcdByte hv, exec_bcdEnc_of_le hv s, ?_⟩,
    fun s b hb => ⟨bcdPort b, (bcdPort_toNat hb).trans_le (bcdValue_le hb), exec_bcdDec_of_isBcd hb s, ?_⟩⟩
  · rw [exec_bcdDec_of_isBcd (isBcd_bcdByte hv), bcdPort_bcdByte hv]
  · rw [exec_bcdEnc_of_le ((bcdPort_toNat hb).trans_le (bcdValue_le hb)), bcdByte_bcdPort hb]

/-- Settles O3, by the two answers of BCD_ENC. -/
theorem bcdEncPacksTwoDigits : Obligations.BcdEncPacksTwoDigits := fun s _ =>
  ⟨fun hv => ⟨_, bcdByte_toNat hv, exec_bcdEnc_of_le hv s⟩, fun hv => exec_bcdEnc_of_gt hv s⟩

/-- Settles O4, by the two answers of BCD_DEC; the byte's nibbles are its quotient and remainder by 16. -/
theorem bcdDecReadsTwoDigits : Obligations.BcdDecReadsTwoDigits := by
  refine fun s b => ⟨fun h => ?_, fun h => exec_bcdDec_of_not_isBcd ((isBcd_eq_false_iff b).mpr h) s⟩
  have hb := (isBcd_iff b).mpr h
  exact ⟨bcdPort b, (bcdPort_toNat hb).trans (bcdValue_eq b), exec_bcdDec_of_isBcd hb s⟩

/-- Settles O6: both texts are the tens digit and the units digit, of the byte to the base 16 and of its value to the base 10. -/
theorem textMethodAgrees : Obligations.TextMethodAgrees := by
  refine ⟨fun b hb => ?_, fun v hlow hhigh => ?_⟩
  · obtain ⟨htens, hunits⟩ := (isBcd_iff b).mp hb
    have hquot : bcdValue b / 10 = b.toNat / 16 := by rw [bcdValue_eq]; omega
    have hrem : bcdValue b % 10 = b.toNat % 16 := by rw [bcdValue_eq]; omega
    rw [hquot, hrem]
  · rw [bcdByte_toNat hhigh, ofDigits_digits_of_two_digits 16 hlow hhigh]

end Sys2Proof.Proofs

/-! The family 42_byte_swap.md: what BSWAP answers by the operand's length (R160), and the swap as its own inverse (R161). -/

namespace Sys2Proof.Machine

theorem exec_bswap_of_length {d : List Byte} (hlow : 1 ≤ d.length) (hhigh : d.length ≤ 5) (s : State) :
    exec (.bswap d) s = .next { s with out := some (.ok (.swapped d.reverse)) } :=
  ((execBswap_cases d s).resolve_right (by omega)).2.2

theorem exec_bswap_of_bad_length {d : List Byte} (h : d.length < 1 ∨ 5 < d.length) (s : State) :
    exec (.bswap d) s = .next { s with out := some (.raised .len) } :=
  ((execBswap_cases d s).resolve_left (by omega)).2

end Sys2Proof.Machine

namespace Sys2Proof.Proofs

open Sys2Proof.Machine

/-- Settles O26, by the two answers of BSWAP; the bytes swapped are the operand's reverse. -/
theorem bswapReversesBytes : Obligations.BswapReversesBytes := fun s d =>
  ⟨fun ⟨hlow, hhigh⟩ => ⟨d.reverse, exec_bswap_of_length hlow hhigh s, List.length_reverse, fun _ hi => List.getElem?_reverse hi⟩,
    fun h => exec_bswap_of_bad_length (by omega) s⟩

/-- Settles O27: the reverse of an operand in range is in range, so it is swapped too, and reversing twice gives the operand. -/
theorem bswapIsInvolution : Obligations.BswapIsInvolution := by
  intro s d hlow hhigh
  have hlen : d.reverse.length = d.length := List.length_reverse
  have hback := exec_bswap_of_length (d := d.reverse) (hlow.trans_eq hlen.symm) (hlen.trans_le hhigh) s
  rw [List.reverse_reverse] at hback
  exact ⟨d.reverse, exec_bswap_of_length hlow hhigh s, hback⟩

end Sys2Proof.Proofs

/-! The family 43_field_codec.md: what each field encoder and decoder answers for the operands of each case (R180 to R201), the three
round trips (R182, R192, R202), and the frequency field read through the byte swapper (R213). -/

namespace Sys2Proof.Machine

/-! ### The tail of a response (43_field_codec.md R210, R214) -/

theorem decodeTail_of_short {k : Nat} {resp : List Byte} (h : resp.length < k) (s : State) (read : List Byte → Results) :
    decodeTail k resp s read = .next { s with out := some (.raised .short) } := if_pos h

theorem decodeTail_of_bcd {k : Nat} {t : List Byte} (hk : t.length = k) (hbcd : ∀ b ∈ t, isBcd b = true) (p : List Byte)
    (s : State) (read : List Byte → Results) :
    decodeTail k (p ++ t) s read = .next { s with out := some (.ok (read t)) } := by
  rw [decodeTail_append hk, if_pos (List.all_eq_true.mpr hbcd)]

/-! ### The frequency field as base-100 digits (43_field_codec.md R180 to R182) -/

/-- The `k` lowest pairs of decimal digits of `n`, one BCD byte a pair, least significant first: the frequency field of any length. -/
def pairBytes (k n : Nat) : List Byte := (List.range k).map fun i => bcdByte (n / 100 ^ i % 100)

theorem freqBytes_eq_pairBytes (hz : Nat) : freqBytes hz = pairBytes 5 hz := rfl

/-- The lowest pair, then the pairs of the quotient. -/
theorem pairBytes_succ_low (k n : Nat) : pairBytes (k + 1) n = bcdByte (n % 100) :: pairBytes k (n / 100) := by
  have hrest : ∀ i, n / 100 ^ (i + 1) = n / 100 / 100 ^ i := fun i => by rw [Nat.div_div_eq_div_mul, pow_succ']
  simp only [pairBytes, List.range_succ_eq_map, List.map_cons, List.map_map, Function.comp_def, Nat.succ_eq_add_one, hrest,
    pow_zero, Nat.div_one]

/-- The lower pairs, then the highest one. -/
theorem pairBytes_succ_high (k n : Nat) : pairBytes (k + 1) n = pairBytes k n ++ [bcdByte (n / 100 ^ k % 100)] := by
  simp only [pairBytes, List.range_succ, List.map_append, List.map_singleton]

theorem pairBytes_freqValue {t : List Byte} (h : ∀ b ∈ t, isBcd b = true) : pairBytes t.length (freqValue t) = t := by
  induction t with
  | nil => rfl
  | cons b t ih =>
    obtain ⟨hb, ht⟩ := List.forall_mem_cons.mp h
    have hle := bcdValue_le hb
    have hlow : freqValue (b :: t) % 100 = bcdValue b := by rw [freqValue]; omega
    have hrest : freqValue (b :: t) / 100 = freqValue t := by rw [freqValue]; omega
    rw [List.length_cons, pairBytes_succ_low, hlow, hrest, bcdByte_bcdValue hb, ih ht]

theorem freqValue_lt {t : List Byte} (h : ∀ b ∈ t, isBcd b = true) : freqValue t < 100 ^ t.length := by
  rw [← pairBytes_freqValue h, pairBytes, freqValue_digits, List.length_map, List.length_range]
  exact Nat.mod_lt _ (by positivity)

theorem freqBytes_freqValue {t : List Byte} (hlen : t.length = 5) (h : ∀ b ∈ t, isBcd b = true) :
    freqBytes (freqValue t) = t := by
  rw [freqBytes_eq_pairBytes, ← hlen, pairBytes_freqValue h]

theorem exec_freqEnc_of_lt {hz : BitVec 34} (h : hz.toNat < 10 ^ 10) (s : State) :
    exec (.freqEnc hz) s = .next { s with out := some (.ok (.freqField (freqBytes hz.toNat))) } :=
  ((execFreqEnc_cases hz s).resolve_right fun hr => Nat.not_le_of_lt h hr.1).2

theorem exec_freqEnc_of_ge {hz : BitVec 34} (h : 10 ^ 10 ≤ hz.toNat) (s : State) :
    exec (.freqEnc hz) s = .next { s with out := some (.raised .range) } :=
  ((execFreqEnc_cases hz s).resolve_left fun hl => Nat.not_le_of_lt hl.1 h).2

/-- Ten decimal digits fit the 34-bit result port, so FREQ_DEC answers the whole value of the tail. -/
theorem exec_freqDec_of_bcd {t : List Byte} (hlen : t.length = 5) (hbcd : ∀ b ∈ t, isBcd b = true) (p : List Byte) (s : State) :
    ∃ hz : BitVec 34, hz.toNat = freqValue t ∧
      exec (.freqDec (p ++ t)) s = .next { s with out := some (.ok (.hz hz)) } := by
  have hlt : freqValue t < 100 ^ 5 := hlen ▸ freqValue_lt hbcd
  exact ⟨BitVec.ofNat 34 (freqValue t), Nat.mod_eq_of_lt (hlt.trans (by norm_num)),
    decodeTail_of_bcd hlen hbcd p s freqResults⟩

/-! ### The frequency field through the swapper (43_field_codec.md R213) -/

theorem nibbles_cons (b : Byte) (bs : List Byte) : nibbles (b :: bs) = (hi b).toNat :: (lo b).toNat :: nibbles bs := rfl

theorem nibbles_concat (bs : List Byte) (b : Byte) : nibbles (bs ++ [b]) = nibbles bs ++ [(hi b).toNat, (lo b).toNat] :=
  List.flatMap_append

theorem hi_bcdByte_toNat {v : Nat} (hv : v ≤ 99) : (hi (bcdByte v)).toNat = v / 10 := by
  rw [hi_toNat, bcdByte_toNat hv]
  omega

theorem lo_bcdByte_toNat {v : Nat} (hv : v ≤ 99) : (lo (bcdByte v)).toNat = v % 10 := by
  rw [lo_toNat, bcdByte_toNat hv]
  omega

/-- Two more digits to the right. -/
theorem decimalNumber_concat_pair (ds : List Nat) (a b : Nat) :
    decimalNumber (ds ++ [a, b]) = 100 * decimalNumber ds + (10 * a + b) := by
  simp only [decimalNumber, List.foldl_append, List.foldl_cons, List.foldl_nil]
  omega

/-- The nibbles of the reversed digit pairs are the decimal digits, most significant first. -/
theorem nibbles_reverse_pairBytes (k n : Nat) :
    nibbles (pairBytes k n).reverse = ((List.range (2 * k)).map fun i => n / 10 ^ i % 10).reverse := by
  induction k with
  | zero => rfl
  | succ k ih =>
    have hpair : n / 100 ^ k % 100 ≤ 99 := Nat.le_of_lt_succ (Nat.mod_lt _ (by decide))
    have hpow : n / 100 ^ k = n / 10 ^ (2 * k) := by norm_num [pow_mul]
    have htens : n / 100 ^ k % 100 / 10 = n / 10 ^ (2 * k + 1) % 10 := by
      rw [pow_succ, ← Nat.div_div_eq_div_mul, ← hpow]
      omega
    have hunits : n / 100 ^ k % 100 % 10 = n / 10 ^ (2 * k) % 10 := by
      rw [← hpow]
      omega
    rw [pairBytes_succ_high, List.reverse_concat, nibbles_cons, ih, hi_bcdByte_toNat hpair, lo_bcdByte_toNat hpair, htens, hunits,
      Nat.mul_succ, List.range_succ, List.range_succ]
    simp only [List.map_append, List.map_singleton, List.reverse_concat]

/-- The nibbles of a swapped tail spell its value: each byte of the tail is one more pair of digits to the right. -/
theorem decimalNumber_nibbles_reverse (t : List Byte) : decimalNumber (nibbles t.reverse) = freqValue t := by
  induction t with
  | nil => rfl
  | cons b t ih =>
    rw [List.reverse_cons, nibbles_concat, decimalNumber_concat_pair, ih, freqValue, bcdValue, Nat.add_comm]

/-! ### The time field (43_field_codec.md R190 to R192) -/

/-- TIME_ENC answers a field only for an accepted time, and then it is the two BCD bytes. -/
theorem timeField_of_exec_timeEnc {hour minute : BitVec 8} {s : State} {f : List Byte}
    (h : exec (.timeEnc hour minute) s = .next { s with out := some (.ok (.timeField f)) }) :
    (s.params.timePad = true ∨ 10 ≤ hour.toNat ∧ 10 ≤ minute.toNat) ∧ f = [bcdByte hour.toNat, bcdByte minute.toNat] := by
  rcases execTimeEnc_cases hour minute s with ⟨-, he⟩ | ⟨-, -, -, -, he⟩ | ⟨-, -, haccepted, he⟩
  · exact nomatch he.symm.trans h
  · exact nomatch he.symm.trans h
  · cases he.symm.trans h
    exact ⟨haccepted, rfl⟩

theorem exec_timeDec_of_bcd {h m : Byte} (hh : isBcd h = true) (hm : isBcd m = true) (p : List Byte) (s : State) :
    exec (.timeDec (p ++ [h, m])) s = .next { s with out := some (.ok (.time (bcdPort h) (bcdPort m))) } :=
  decodeTail_of_bcd rfl (by simp [hh, hm]) p s timeResults

/-! ### The date field (43_field_codec.md R200 to R202) -/

/-- Four decimal digits fit the 14-bit result port, so DATE_DEC answers the whole year. -/
theorem exec_dateDec_of_bcd {y1 y0 mo d : Byte} (hbcd : ∀ b ∈ [y1, y0, mo, d], isBcd b = true) (p : List Byte) (s : State) :
    ∃ year : BitVec 14, year.toNat = 100 * bcdValue y1 + bcdValue y0 ∧
      exec (.dateDec (p ++ [y1, y0, mo, d])) s = .next { s with out := some (.ok (.date year (bcdPort mo) (bcdPort d))) } := by
  have hy1 := bcdValue_le (hbcd y1 (by simp))
  have hy0 := bcdValue_le (hbcd y0 (by simp))
  exact ⟨BitVec.ofNat 14 (100 * bcdValue y1 + bcdValue y0), Nat.mod_eq_of_lt (by omega),
    decodeTail_of_bcd rfl hbcd p s dateResults⟩

end Sys2Proof.Machine

namespace Sys2Proof.Proofs

open Sys2Proof.Machine

/-- Settles O30: `freqBytes` and `freqValue` take each other back on the numbers below 10^10 and the fields of five BCD bytes. -/
theorem freqRoundTrip : Obligations.FreqRoundTrip := by
  refine ⟨fun s hz hrange => ⟨freqBytes hz.toNat, exec_freqEnc_of_lt hrange s, fun p => exec_freqDec_freqBytes hrange p s⟩,
    fun s f hlen hbcd => ?_⟩
  obtain ⟨hz, hval, hdec⟩ := exec_freqDec_of_bcd hlen hbcd [] s
  have hrange : hz.toNat < 10 ^ 10 := by
    have hlt := freqValue_lt hbcd
    rw [hlen] at hlt
    omega
  refine ⟨hz, hdec, ?_⟩
  rw [exec_freqEnc_of_lt hrange, hval, freqBytes_freqValue hlen hbcd]

/-- Settles O31: BSWAP puts the digit pairs most significant first, and each byte's nibbles are its tens and units digits. -/
theorem freqReadsThroughSwapper : Obligations.FreqReadsThroughSwapper := by
  constructor
  · intro s hz hrange
    have hlen := freqBytes_length hz.toNat
    have hindices : (List.range 10).reverse = (List.range 10).map (9 - ·) := by decide
    refine ⟨freqBytes hz.toNat, _, exec_freqEnc_of_lt hrange s, exec_bswap_of_length (by omega) (by omega) s, ?_⟩
    rw [freqBytes_eq_pairBytes, nibbles_reverse_pairBytes, ← List.map_reverse, hindices, List.map_map]
    rfl
  · intro s p t hlen hbcd
    obtain ⟨hz, hval, hdec⟩ := exec_freqDec_of_bcd hlen hbcd p s
    exact ⟨t.reverse, hz, exec_bswap_of_length (by omega) (by omega) s, hdec, hval.trans (decimalNumber_nibbles_reverse t).symm⟩

/-- Settles O32, by the three answers of TIME_ENC. -/
theorem timeEncPacksHourMinute : Obligations.TimeEncPacksHourMinute := by
  intro s hour minute
  rcases execTimeEnc_cases hour minute s with ⟨hrange, he⟩ | ⟨hhour, hminute, hpad, hgap, he⟩ | ⟨hhour, hminute, haccepted, he⟩
  · exact ⟨fun _ => he, fun _ _ => by omega⟩
  · refine ⟨fun _ => by omega, fun _ _ => ⟨fun _ _ => he, fun haccepted => ?_⟩⟩
    rw [hpad] at haccepted
    exact absurd (haccepted.resolve_left Bool.false_ne_true) (by omega)
  · refine ⟨fun _ => by omega, fun _ _ => ⟨fun hpad hgap => ?_, fun _ => he⟩⟩
    rw [hpad] at haccepted
    exact absurd (haccepted.resolve_left Bool.false_ne_true) (by omega)

/-- Settles O34: only an accepted time has a field, and each of its two bytes carries its number back through the result port. -/
theorem timeRoundTrip : Obligations.TimeRoundTrip := by
  intro s hour minute hhour hminute
  have hencode := ((timeEncPacksHourMinute s hour minute).2 hhour hminute).2
  refine ⟨⟨fun ⟨_, hf⟩ => (timeField_of_exec_timeEnc hf).1, fun haccepted => ⟨_, hencode haccepted⟩⟩, fun f hf p => ?_⟩
  have hhour99 : hour.toNat ≤ 99 := by omega
  have hminute99 : minute.toNat ≤ 99 := by omega
  obtain ⟨-, rfl⟩ := timeField_of_exec_timeEnc hf
  rw [exec_timeDec_of_bcd (isBcd_bcdByte hhour99) (isBcd_bcdByte hminute99), bcdPort_bcdByte hhour99, bcdPort_bcdByte hminute99]

/-- Settles O35, by the two answers of DATE_ENC. -/
theorem dateEncPacksYearMonthDay : Obligations.DateEncPacksYearMonthDay := by
  intro s year month day
  rcases execDateEnc_cases year month day s with ⟨hout, he⟩ | ⟨hin, he⟩
  · exact ⟨fun _ => he, fun _ _ _ _ _ _ => by omega⟩
  · exact ⟨fun _ => by omega, fun _ _ _ _ _ _ => he⟩

/-- Settles O37: the century and the year in it put the year together again, and the month and the day pass through their ports. -/
theorem dateRoundTrip : Obligations.DateRoundTrip := by
  intro s year month day hyearLow hyearHigh hmonthLow hmonthHigh hdayLow hdayHigh
  have hcentury : year.toNat / 100 ≤ 99 := by omega
  have hyearOf : year.toNat % 100 ≤ 99 := by omega
  have hmonth : month.toNat ≤ 99 := by omega
  have hday : day.toNat ≤ 99 := by omega
  refine ⟨_, (dateEncPacksYearMonthDay s year month day).2 hyearLow hyearHigh hmonthLow hmonthHigh hdayLow hdayHigh, fun p => ?_⟩
  obtain ⟨year', hval, hdec⟩ := exec_dateDec_of_bcd (y1 := bcdByte (year.toNat / 100)) (y0 := bcdByte (year.toNat % 100))
    (mo := bcdByte month.toNat) (d := bcdByte day.toNat) (by simp [isBcd_bcdByte, hcentury, hyearOf, hmonth, hday]) p s
  have hsame : year' = year := by
    apply BitVec.eq_of_toNat_eq
    rw [hval, bcdValue_bcdByte hcentury, bcdValue_bcdByte hyearOf, Nat.div_add_mod]
  rw [hdec, hsame, bcdPort_bcdByte hmonth, bcdPort_bcdByte hday]

/-- Settles O28, by the two answers of FREQ_ENC. -/
theorem freqEncPacksTenDigits : Obligations.FreqEncPacksTenDigits := by
  refine fun s hz => ⟨fun hrange => ?_, fun hrange => exec_freqEnc_of_ge hrange s⟩
  rw [exec_freqEnc_of_lt hrange]
  simp [freqBytes, List.range_succ]

/-- Settles O29: SHORT before BADBCD, and else the value of the five tail bytes, which `freqValue` nests by Horner's rule. -/
theorem freqDecReadsTail : Obligations.FreqDecReadsTail := by
  refine fun s => ⟨fun resp hshort => decodeTail_of_short hshort s _, fun p t0 t1 t2 t3 t4 => ⟨fun hbcd => ?_, ?_⟩⟩
  · obtain ⟨hz, hval, hdec⟩ := exec_freqDec_of_bcd rfl hbcd p s
    refine ⟨hz, hval.trans ?_, hdec⟩
    simp only [freqValue]
    ring
  · rintro ⟨b, hmem, hb⟩
    exact decodeTail_raises_badBcd hb hmem rfl p s _

/-- Settles O33: SHORT before BADBCD, and else the values of the two tail bytes. -/
theorem timeDecReadsTail : Obligations.TimeDecReadsTail := by
  refine fun s => ⟨fun resp hshort => decodeTail_of_short hshort s _, fun p h m => ⟨fun hh hm => ?_, ?_⟩⟩
  · exact ⟨bcdPort h, bcdPort m, bcdPort_toNat hh, bcdPort_toNat hm, exec_timeDec_of_bcd hh hm p s⟩
  · rintro (hb | hb)
    · exact decodeTail_raises_badBcd hb (by simp) rfl p s _
    · exact decodeTail_raises_badBcd hb (by simp) rfl p s _

/-- Settles O36: SHORT before BADBCD, and else the values of the four tail bytes. -/
theorem dateDecReadsTail : Obligations.DateDecReadsTail := by
  refine fun s => ⟨fun resp hshort => decodeTail_of_short hshort s _, fun p y1 y0 mo d => ⟨fun hbcd => ?_, ?_⟩⟩
  · obtain ⟨year, hyear, hdec⟩ := exec_dateDec_of_bcd hbcd p s
    exact ⟨year, bcdPort mo, bcdPort d, hyear, bcdPort_toNat (hbcd mo (by simp)), bcdPort_toNat (hbcd d (by simp)), hdec⟩
  · rintro ⟨b, hmem, hb⟩
    exact decodeTail_raises_badBcd hb hmem rfl p s _

end Sys2Proof.Proofs

/-! The family 60_exceptions.md: which operation raises which status, and from which receiver state (R230), which operations take the
receiver out of ERR (R237), and the state kept between operations (R246). -/

namespace Sys2Proof.Machine

/-- The rows of 60_exceptions.md R230: from the state `s` the operation may raise the status. RX_READ in ERR raises whichever status is
held, so the rows of TIMEOUT, MALFORMED and OVERFLOW are one here. -/
inductive MayRaise (s : State) : Instr → Status → Prop where
  | held : s.rxState = .err → MayRaise s .rxRead s.rxStatus
  | range {i : Instr} : i.opcode ∈ [Opcode.bcdEnc, .freqEnc, .timeEnc, .dateEnc] → MayRaise s i .range
  | digit {hour minute : BitVec 8} : s.params.timePad = false → MayRaise s (.timeEnc hour minute) .digit
  | badBcd {i : Instr} : i.opcode ∈ [Opcode.bcdDec, .freqDec, .timeDec, .dateDec] → MayRaise s i .badBcd
  | short {i : Instr} : i.opcode ∈ [Opcode.freqDec, .timeDec, .dateDec] → MayRaise s i .short
  | len {i : Instr} : i.opcode ∈ [Opcode.frameEnc, .bswap] → MayRaise s i .len
  | busyStart : s.pending = true → MayRaise s .rxStart .busy
  | busyRead : s.pending = true → MayRaise s .rxRead .busy
  | empty : s.rxState = .idle → MayRaise s .rxRead .empty

/-- Every status an operation raises is one of its rows: the cases of each operation's meaning, those that raise. -/
theorem mayRaise_of_exec {i : Instr} {s t : State} {st : Status} (h : exec i s = .next t) (hout : t.out = some (.raised st)) :
    MayRaise s i st := by
  cases i with
  | rxByte b => cases (execRxByte_out h).symm.trans hout
  | rxTimeout => cases (execRxTimeout_out h).symm.trans hout
  | rxStart =>
    rcases execRxStart_cases s with ⟨hp, e⟩ | ⟨-, e⟩ <;> cases e.symm.trans h <;> cases hout
    exact .busyStart hp
  | rxRead =>
    rcases execRxRead_cases s with ⟨hp, e⟩ | ⟨hidle, e⟩ | ⟨-, e⟩ | ⟨herr, e⟩ <;> cases e.symm.trans h <;> cases hout
    · exact .busyRead hp
    · exact .empty hidle
    · exact .held herr
  | frameEnc cmd hasSub sub payload =>
    rcases execFrameEnc_cases cmd hasSub sub payload s with ⟨-, e⟩ | ⟨-, e⟩ <;> cases e.symm.trans h <;> cases hout
    exact .len (by simp [Instr.opcode])
  | bswap d =>
    rcases execBswap_cases d s with ⟨-, -, e⟩ | ⟨-, e⟩ <;> cases e.symm.trans h <;> cases hout
    exact .len (by simp [Instr.opcode])
  | bcdEnc v =>
    rcases execBcdEnc_cases v s with ⟨-, e⟩ | ⟨-, e⟩ <;> cases e.symm.trans h <;> cases hout
    exact .range (by simp [Instr.opcode])
  | freqEnc hz =>
    rcases execFreqEnc_cases hz s with ⟨-, e⟩ | ⟨-, e⟩ <;> cases e.symm.trans h <;> cases hout
    exact .range (by simp [Instr.opcode])
  | dateEnc year month day =>
    rcases execDateEnc_cases year month day s with ⟨-, e⟩ | ⟨-, e⟩ <;> cases e.symm.trans h <;> cases hout
    exact .range (by simp [Instr.opcode])
  | timeEnc hour minute =>
    rcases execTimeEnc_cases hour minute s with ⟨-, e⟩ | ⟨-, -, hpad, -, e⟩ | ⟨-, -, -, e⟩ <;> cases e.symm.trans h <;> cases hout
    · exact .range (by simp [Instr.opcode])
    · exact .digit hpad
  | bcdDec b =>
    rcases execBcdDec_cases b s with ⟨-, e⟩ | ⟨-, e⟩ <;> cases e.symm.trans h <;> cases hout
    exact .badBcd (by simp [Instr.opcode])
  | freqDec resp | timeDec resp | dateDec resp =>
    rcases decodeTail_cases _ resp s _ with ⟨-, e⟩ | ⟨-, -, e⟩ | ⟨-, -, e⟩ <;> cases e.symm.trans h <;> cases hout
    · exact .short (by simp [Instr.opcode])
    · exact .badBcd (by simp [Instr.opcode])

end Sys2Proof.Machine

namespace Sys2Proof.Proofs

open Sys2Proof.Machine

/-- Settles O58, by the row of R230 that raises the status; the invariants say what ERR can hold (10_state.md R30 (d)). -/
theorem statusesComeFromTheirOperations : Obligations.StatusesComeFromTheirOperations := by
  refine ⟨rfl, fun s t i st hinv h hout => ?_⟩
  cases mayRaise_of_exec h hout with
  | held herr => rcases hinv.statusErr herr with hst | hst | hst <;> simp [hst, herr]
  | digit hpad => simp [hpad, Instr.opcode]
  | busyStart hpending | busyRead hpending => simp [hpending]
  | empty hidle => simp [hidle]
  | range hop | badBcd hop | short hop | len hop => simpa using hop

/-- Settles O24, by the operation: no receive event exists in ERR (40_frame_codec.md R109), and the pure ones write no register. -/
theorem errLeftOnlyByReadOrStart : Obligations.ErrLeftOnlyByReadOrStart := by
  intro s t i herr h hleft
  have hpending : s.pending = false := s.not_pending_iff.mpr (.inr (.inr herr))
  cases i with
  | rxRead =>
    cases (exec_rxRead_err herr).symm.trans h
    exact .inl ⟨rfl, rfl, rfl⟩
  | rxStart =>
    cases (exec_rxStart_of_not_pending hpending).symm.trans h
    exact .inr ⟨rfl, rfl⟩
  | rxByte b => cases (exec_rxByte_of_not_pending hpending b).symm.trans h
  | rxTimeout => cases (exec_rxTimeout_of_not_pending hpending).symm.trans h
  | frameEnc | bcdEnc | bcdDec | bswap | freqEnc | freqDec | timeEnc | timeDec | dateEnc | dateDec =>
    obtain ⟨r, rfl⟩ := exec_pure_frame rfl h
    exact absurd herr hleft

/-- Settles O48: with nothing presented, the step is the branch of `runNext` that keeps the state (log 3). -/
theorem idleStepKeepsState : Obligations.IdleStepKeepsState := by
  intro s hs
  rw [step, runNext, hs]

end Sys2Proof.Proofs

/-! The family 70_reset_and_hazards.md: what a reset leaves (R260 to R262), the receive that does not end (R267), and an echoed read
request (R268). -/

namespace Sys2Proof.Machine

/-- Presented first, the reset action is the whole step, and the rest of the queue stays presented (70_reset_and_hazards.md R260;
log 12). -/
theorem step_of_reset {s : State} {rest : List Input} (h : s.inputs = .reset :: rest) :
    step s = .next (State.applyReset { s with inputs := rest }) := step_of_inputs h

/-- A byte other than 0xFE is dropped in HUNT, so any number of them leaves the receiver there (40_frame_codec.md R106). -/
theorem runAll_rxFeed_hunt {s : State} (hst : s.rxState = .hunt) {b : Byte} {bs : List Byte} (hno : 0xFE ∉ b :: bs) :
    runAll (rxFeed (b :: bs)) s = .next { s with out := none } := by
  induction bs generalizing s b with
  | nil => exact runAll_cons_of_next (exec_rxByte_hunt_other hst (List.ne_of_not_mem_cons hno).symm) []
  | cons c cs ih =>
    have hdrop := exec_rxByte_hunt_other hst (List.ne_of_not_mem_cons hno).symm
    rw [rxFeed_cons, runAll_cons_of_next hdrop]
    exact ih (s := { s with out := none }) hst (List.not_mem_of_not_mem_cons hno)

/-- FRAME_ENC without sub-command or payload delimits the addresses and the command; an empty payload is never too long
(40_frame_codec.md R100). -/
theorem exec_frameEnc_readRequest (cmd sub : Byte) (s : State) :
    exec (.frameEnc cmd false sub []) s = .next { s with out := some (.ok (.frame
      ([0xFE, 0xFE] ++ [s.params.radioAddr, s.params.ctrlAddr, cmd] ++ [0xFD]))) } :=
  ((execFrameEnc_cases cmd false sub [] s).resolve_right (Nat.not_lt_zero _ ·.1)).2

end Sys2Proof.Machine

namespace Sys2Proof.Proofs

open Sys2Proof.Machine

/-- Settles O22, by induction on the bytes, each of which the hunt drops. -/
theorem huntMayNotEnd : Obligations.HuntMayNotEnd := fun _ _ _ hst hno => runAll_rxFeed_hunt hst hno

/-- Settles O42: the echo is a delimited body without 0xFD, which READ_FRAME answers whole. Its 3 bytes are too few for a frequency or
a date, and the 0xE0 in its last two is no BCD byte. -/
theorem echoedReadRequestIsNoField : Obligations.EchoedReadRequestIsNoField := by
  intro s cmd sub hpending hinv hno
  have hshort : [s.params.radioAddr, s.params.ctrlAddr, cmd].length < 4 := Nat.lt_succ_self 3
  have hfits : [s.params.radioAddr, s.params.ctrlAddr, cmd].length ≤ s.params.nRx := by linarith [hinv.legal.1]
  have hread := fun out => runAll_readFrame (s := { s with out := out }) hpending hinv.depth hno hfits
  refine ⟨_, _, _, _, exec_frameEnc_readRequest cmd sub s, rfl, hread _, rfl, rfl, ?_, ?_, fun hctrl => ?_⟩
  · exact decodeTail_of_short (Nat.lt_succ_of_lt hshort) _ freqResults
  · exact decodeTail_of_short hshort _ dateResults
  · have hbad : isBcd s.params.ctrlAddr = false := hctrl ▸ by decide
    exact decodeTail_raises_badBcd (t := [s.params.ctrlAddr, cmd]) hbad (by simp) rfl [s.params.radioAddr] _ timeResults

/-- Settles O50: a pure operation's record depends on the parameters alone, and no step changes those. -/
theorem resetLeavesPureUnits : Obligations.ResetLeavesPureUnits := by
  intro s t _ _ hstep
  have hparams : t.params = s.params := step_params hstep
  refine ⟨hparams, fun i hi => ?_⟩
  obtain ⟨r, hr⟩ := exec_pure_gives hi s.params
  exact ⟨r, hr s rfl, hr t hparams⟩

/-- Settles O49: the state after a reset is IDLE with nothing held, and the receiver's rules for IDLE say the rest. -/
theorem resetClearsReceiver : Obligations.ResetClearsReceiver := by
  intro s rest hs
  refine ⟨_, step_of_reset hs, rfl, rfl, rfl, freshBuffer_length _ _, rfl, rfl, fun e => ?_, ?_, ?_⟩
  · exact exec_event_of_not_pending rfl e
  · exact exec_rxRead_idle rfl
  · exact exec_rxStart_of_not_pending rfl

end Sys2Proof.Proofs
